-- ==== Sys2Proof/Word.lean ====
section
/-! DEFINITION. The word types of the machine (spec/00_scope.md R8, R9): every value is unsigned. -/

namespace Sys2Proof

/-- A byte: a V register, a timer, a memory byte (R21, R30, R50). -/
abbrev Byte := BitVec 8

/-- A 16-bit value: I, PC, a return address, an instruction word (R24, R27, R31, R70). -/
abbrev Word := BitVec 16

/-- A 12-bit address immediate, the field NNN (R71). -/
abbrev Addr12 := BitVec 12

/-- The 4-bit immediate N (R71). -/
abbrev Nibble := BitVec 4

/-- A register number, 0 to 15 (R21: an index cannot be out of range). -/
abbrev Reg := Fin 16

end Sys2Proof
end

