-- ==== Sys2Proof/Syntax.lean ====
section
/-! DEFINITION. The instructions: one constructor per row of spec/opcode_table.json (spec/30_encoding.md R75). -/

namespace Sys2Proof

/-- The 34 instructions of R75, operands as the fields of R71. Constructor names follow the ids of R88. -/
inductive Instr where
  /-- 00E0, R170 -/
  | cls
  /-- 00EE, R102 -/
  | ret
  /-- 1NNN, R100 -/
  | jp (nnn : Addr12)
  /-- 2NNN, R101 -/
  | call (nnn : Addr12)
  /-- 3XNN, R104 -/
  | seImm (x : Reg) (nn : Byte)
  /-- 4XNN, R105 -/
  | sneImm (x : Reg) (nn : Byte)
  /-- 5XY0, R106 -/
  | seReg (x y : Reg)
  /-- 6XNN, R122 -/
  | ldImm (x : Reg) (nn : Byte)
  /-- 7XNN, R123 -/
  | addImm (x : Reg) (nn : Byte)
  /-- 8XY0, R124 -/
  | ldReg (x y : Reg)
  /-- 8XY1, R125 -/
  | orReg (x y : Reg)
  /-- 8XY2, R126 -/
  | andReg (x y : Reg)
  /-- 8XY3, R127 -/
  | xorReg (x y : Reg)
  /-- 8XY4, R128 -/
  | addReg (x y : Reg)
  /-- 8XY5, R129 -/
  | sub (x y : Reg)
  /-- 8XY6, R131 -/
  | shr (x y : Reg)
  /-- 8XY7, R130 -/
  | subn (x y : Reg)
  /-- 8XYE, R132 -/
  | shl (x y : Reg)
  /-- 9XY0, R107 -/
  | sneReg (x y : Reg)
  /-- ANNN, R150 -/
  | ldI (nnn : Addr12)
  /-- BNNN, R103; the register field X of the form "BXNN" shares bits 11 to 8 with NNN (R72) -/
  | jpV0 (x : Reg) (nnn : Addr12)
  /-- CXNN, R133 -/
  | rnd (x : Reg) (nn : Byte)
  /-- DXYN, R171 -/
  | drw (x y : Reg) (n : Nibble)
  /-- EX9E, R180 -/
  | skp (x : Reg)
  /-- EXA1, R181 -/
  | sknp (x : Reg)
  /-- FX07, R183 -/
  | ldVxDt (x : Reg)
  /-- FX0A, R182 -/
  | ldVxK (x : Reg)
  /-- FX15, R184 -/
  | ldDtVx (x : Reg)
  /-- FX18, R185 -/
  | ldStVx (x : Reg)
  /-- FX1E, R152 -/
  | addI (x : Reg)
  /-- FX29, R153 -/
  | ldF (x : Reg)
  /-- FX33, R154 -/
  | ldB (x : Reg)
  /-- FX55, R155; X is a count -/
  | stRegs (x : Reg)
  /-- FX65, R156; X is a count -/
  | ldRegs (x : Reg)
  deriving DecidableEq, Repr

end Sys2Proof
end

