-- ==== Sys2Proof/WellFormed.lean ====
section
/-! DEFINITION. Which instruction terms the encoding admits. Every field width is carried by its type, so the one
check left is the overlap of X and NNN in BNNN (spec/30_encoding.md R72). -/

namespace Sys2Proof

/-- Bits 11 to 8 of NNN: the register field X that BNNN shares with NNN (R71, R72). -/
def topNibble (nnn : Addr12) : Reg := (nnn.extractLsb' 8 4).toFin

/-- A BNNN names the register its own NNN contains (R72); every other term is well-formed by its types. -/
def Instr.wellFormed : Instr → Bool
  | .jpV0 x nnn => x == topNibble nnn
  | .cls | .ret | .jp _ | .call _ | .seImm _ _ | .sneImm _ _ | .seReg _ _ | .ldImm _ _ | .addImm _ _
  | .ldReg _ _ | .orReg _ _ | .andReg _ _ | .xorReg _ _ | .addReg _ _ | .sub _ _ | .shr _ _ | .subn _ _
  | .shl _ _ | .sneReg _ _ | .ldI _ | .rnd _ _ | .drw _ _ _ | .skp _ | .sknp _ | .ldVxDt _ | .ldVxK _
  | .ldDtVx _ | .ldStVx _ | .addI _ | .ldF _ | .ldB _ | .stRegs _ | .ldRegs _ => true

end Sys2Proof
end

