-- ==== Sys2Proof/Decode.lean ====
section
/-! DEFINITION. The decoder (spec/30_encoding.md R70, R71, R74, R85, R86), total on any bytes and rejecting by name,
and after it the encoder and the opcode map as data (R75). -/

namespace Sys2Proof

/-! ### Fields (R71) -/

/-- C, bits 15 to 12. -/
def fieldC (w : Word) : BitVec 4 := w.extractLsb' 12 4
/-- X, bits 11 to 8, a register number. -/
def fieldX (w : Word) : Reg := (w.extractLsb' 8 4).toFin
/-- Y, bits 7 to 4, a register number. -/
def fieldY (w : Word) : Reg := (w.extractLsb' 4 4).toFin
/-- N, bits 3 to 0. -/
def fieldN (w : Word) : Nibble := w.extractLsb' 0 4
/-- NN, bits 7 to 0. -/
def fieldNN (w : Word) : Byte := w.extractLsb' 0 8
/-- NNN, bits 11 to 0. -/
def fieldNNN (w : Word) : Addr12 := w.extractLsb' 0 12

/-! ### Decoding -/

/-- Why the decoder gives no instruction. -/
inductive DecodeError where
  /-- fewer than the two bytes of an instruction word (R70) -/
  | truncated
  /-- the word matches no row of the opcode map (R85, R86) -/
  | undefinedEncoding (w : Word)
  deriving DecidableEq, Repr

/-- Category 0: two fixed words (R74; spec decision D3). -/
def decode0 (w : Word) : Except DecodeError Instr :=
  if w = 0x00E0#16 then .ok .cls
  else if w = 0x00EE#16 then .ok .ret
  else .error (.undefinedEncoding w)

/-- Category 8: the register-register group, selected by N (R74). -/
def decode8 (w : Word) : Except DecodeError Instr :=
  let x := fieldX w
  let y := fieldY w
  match (fieldN w).toNat with
  | 0x0 => .ok (.ldReg x y)
  | 0x1 => .ok (.orReg x y)
  | 0x2 => .ok (.andReg x y)
  | 0x3 => .ok (.xorReg x y)
  | 0x4 => .ok (.addReg x y)
  | 0x5 => .ok (.sub x y)
  | 0x6 => .ok (.shr x y)
  | 0x7 => .ok (.subn x y)
  | 0xE => .ok (.shl x y)
  | _ => .error (.undefinedEncoding w)

/-- Category E: the key skips, selected by NN (R74). -/
def decodeE (w : Word) : Except DecodeError Instr :=
  let x := fieldX w
  if fieldNN w = 0x9E#8 then .ok (.skp x)
  else if fieldNN w = 0xA1#8 then .ok (.sknp x)
  else .error (.undefinedEncoding w)

/-- Category F: timers, keys, I and memory, selected by NN (R74). -/
def decodeF (w : Word) : Except DecodeError Instr :=
  let x := fieldX w
  let nn := fieldNN w
  if nn = 0x07#8 then .ok (.ldVxDt x)
  else if nn = 0x0A#8 then .ok (.ldVxK x)
  else if nn = 0x15#8 then .ok (.ldDtVx x)
  else if nn = 0x18#8 then .ok (.ldStVx x)
  else if nn = 0x1E#8 then .ok (.addI x)
  else if nn = 0x29#8 then .ok (.ldF x)
  else if nn = 0x33#8 then .ok (.ldB x)
  else if nn = 0x55#8 then .ok (.stRegs x)
  else if nn = 0x65#8 then .ok (.ldRegs x)
  else .error (.undefinedEncoding w)

/-- The dispatch of R74 on the category C. -/
def decodeWord (w : Word) : Except DecodeError Instr :=
  let x := fieldX w
  let y := fieldY w
  let nn := fieldNN w
  let nnn := fieldNNN w
  match (fieldC w).toNat with
  | 0x0 => decode0 w
  | 0x1 => .ok (.jp nnn)
  | 0x2 => .ok (.call nnn)
  | 0x3 => .ok (.seImm x nn)
  | 0x4 => .ok (.sneImm x nn)
  | 0x5 => if fieldN w = 0#4 then .ok (.seReg x y) else .error (.undefinedEncoding w)
  | 0x6 => .ok (.ldImm x nn)
  | 0x7 => .ok (.addImm x nn)
  | 0x8 => decode8 w
  | 0x9 => if fieldN w = 0#4 then .ok (.sneReg x y) else .error (.undefinedEncoding w)
  | 0xA => .ok (.ldI nnn)
  | 0xB => .ok (.jpV0 x nnn)
  | 0xC => .ok (.rnd x nn)
  | 0xD => .ok (.drw x y (fieldN w))
  | 0xE => decodeE w
  | _ => decodeF w

/-- The instruction word `msb:lsb`: the byte at the lower address is the high byte (spec/20_memory.md R53). -/
def wordOfBytes (msb lsb : Byte) : Word := msb ++ lsb

/-- The decoder on bytes: the first instruction and the bytes after it (R70: every instruction is two bytes). -/
def decode : List Byte → Except DecodeError (Instr × List Byte)
  | msb :: lsb :: rest => (decodeWord (wordOfBytes msb lsb)).map (fun i => (i, rest))
  | [_] | [] => .error .truncated

/-- The bytes of one instruction word as memory holds them, high byte first (R53, R70). -/
def bytesOfWord (w : Word) : List Byte := [w.extractLsb' 8 8, w.extractLsb' 0 8]

/-- The one word of an opcode-table row: the low `nbits` bits of `w`, every bit above them 0. -/
def tableWord (nbits w : Nat) : Word := BitVec.ofNat 16 (w % 2 ^ nbits)

/-- The instruction the decoder reads from an opcode-table row's bits. -/
def decodeTableWord (nbits w : Nat) : Option Instr :=
  match decode (bytesOfWord (tableWord nbits w)) with
  | .ok (i, _) => some i
  | .error _ => none

/-! ### Encoding (R75, R72) -/

/-- Format NNN: C, then the 12-bit address. -/
def formNNN (c : BitVec 4) (nnn : Addr12) : Word := c ++ nnn
/-- Formats XNN and XOP: C, X, then an 8-bit NN. -/
def formXNN (c : BitVec 4) (x : Reg) (nn : Byte) : Word := c ++ BitVec.ofFin (w := 4) x ++ nn
/-- Format XYN: C, X, Y, N. -/
def formXYN (c : BitVec 4) (x y : Reg) (n : Nibble) : Word :=
  c ++ BitVec.ofFin (w := 4) x ++ BitVec.ofFin (w := 4) y ++ n

/-- The word of an instruction, from the patterns of R75. -/
def encode : Instr → Word
  | .cls => 0x00E0#16
  | .ret => 0x00EE#16
  | .jp nnn => formNNN 0x1#4 nnn
  | .call nnn => formNNN 0x2#4 nnn
  | .seImm x nn => formXNN 0x3#4 x nn
  | .sneImm x nn => formXNN 0x4#4 x nn
  | .seReg x y => formXYN 0x5#4 x y 0x0#4
  | .ldImm x nn => formXNN 0x6#4 x nn
  | .addImm x nn => formXNN 0x7#4 x nn
  | .ldReg x y => formXYN 0x8#4 x y 0x0#4
  | .orReg x y => formXYN 0x8#4 x y 0x1#4
  | .andReg x y => formXYN 0x8#4 x y 0x2#4
  | .xorReg x y => formXYN 0x8#4 x y 0x3#4
  | .addReg x y => formXYN 0x8#4 x y 0x4#4
  | .sub x y => formXYN 0x8#4 x y 0x5#4
  | .shr x y => formXYN 0x8#4 x y 0x6#4
  | .subn x y => formXYN 0x8#4 x y 0x7#4
  | .shl x y => formXYN 0x8#4 x y 0xE#4
  | .sneReg x y => formXYN 0x9#4 x y 0x0#4
  | .ldI nnn => formNNN 0xA#4 nnn
  | .jpV0 _ nnn => formNNN 0xB#4 nnn
  | .rnd x nn => formXNN 0xC#4 x nn
  | .drw x y n => formXYN 0xD#4 x y n
  | .skp x => formXNN 0xE#4 x 0x9E#8
  | .sknp x => formXNN 0xE#4 x 0xA1#8
  | .ldVxDt x => formXNN 0xF#4 x 0x07#8
  | .ldVxK x => formXNN 0xF#4 x 0x0A#8
  | .ldDtVx x => formXNN 0xF#4 x 0x15#8
  | .ldStVx x => formXNN 0xF#4 x 0x18#8
  | .addI x => formXNN 0xF#4 x 0x1E#8
  | .ldF x => formXNN 0xF#4 x 0x29#8
  | .ldB x => formXNN 0xF#4 x 0x33#8
  | .stRegs x => formXNN 0xF#4 x 0x55#8
  | .ldRegs x => formXNN 0xF#4 x 0x65#8

/-! ### The opcode map as data (R75) -/

/-- A row's mask: the bits of the word it fixes. -/
def rowMask : Instr → Word
  | .cls | .ret => 0xFFFF#16
  | .jp _ | .call _ | .seImm _ _ | .sneImm _ _ | .ldImm _ _ | .addImm _ _ | .ldI _ | .jpV0 _ _ | .rnd _ _
  | .drw _ _ _ => 0xF000#16
  | .seReg _ _ | .ldReg _ _ | .orReg _ _ | .andReg _ _ | .xorReg _ _ | .addReg _ _ | .sub _ _ | .shr _ _
  | .subn _ _ | .shl _ _ | .sneReg _ _ => 0xF00F#16
  | .skp _ | .sknp _ | .ldVxDt _ | .ldVxK _ | .ldDtVx _ | .ldStVx _ | .addI _ | .ldF _ | .ldB _ | .stRegs _
  | .ldRegs _ => 0xF0FF#16

/-- A row's match: the values of the bits its mask selects. -/
def rowMatch : Instr → Word
  | .cls => 0x00E0#16
  | .ret => 0x00EE#16
  | .jp _ => 0x1000#16
  | .call _ => 0x2000#16
  | .seImm _ _ => 0x3000#16
  | .sneImm _ _ => 0x4000#16
  | .seReg _ _ => 0x5000#16
  | .ldImm _ _ => 0x6000#16
  | .addImm _ _ => 0x7000#16
  | .ldReg _ _ => 0x8000#16
  | .orReg _ _ => 0x8001#16
  | .andReg _ _ => 0x8002#16
  | .xorReg _ _ => 0x8003#16
  | .addReg _ _ => 0x8004#16
  | .sub _ _ => 0x8005#16
  | .shr _ _ => 0x8006#16
  | .subn _ _ => 0x8007#16
  | .shl _ _ => 0x800E#16
  | .sneReg _ _ => 0x9000#16
  | .ldI _ => 0xA000#16
  | .jpV0 _ _ => 0xB000#16
  | .rnd _ _ => 0xC000#16
  | .drw _ _ _ => 0xD000#16
  | .skp _ => 0xE09E#16
  | .sknp _ => 0xE0A1#16
  | .ldVxDt _ => 0xF007#16
  | .ldVxK _ => 0xF00A#16
  | .ldDtVx _ => 0xF015#16
  | .ldStVx _ => 0xF018#16
  | .addI _ => 0xF01E#16
  | .ldF _ => 0xF029#16
  | .ldB _ => 0xF033#16
  | .stRegs _ => 0xF055#16
  | .ldRegs _ => 0xF065#16

end Sys2Proof
end

