-- ==== Sys2Proof/Config.lean ====
section
/-! DEFINITION. What is fixed for a machine and what the spec leaves free: the configuration inputs
(spec/00_scope.md R6), the spec's own parameters (R7), and the free values, constants with no body. -/

namespace Sys2Proof

/-- The configuration inputs of R6 and R35, sampled at reset and constant until the next one. -/
structure Cfg where
  /-- 8XY6 and 8XYE shift VY into VX -/
  legacyShift : Bool
  /-- BNNN adds VX in place of V0 -/
  legacyJumpWithVx : Bool
  /-- FX1E writes VF when the new I is at or above 0x1000 -/
  indexOverflowFlag : Bool
  /-- FX55 and FX65 add X+1 to I -/
  legacyStoreLoadAdvancesIndex : Bool
  /-- a positive integer -/
  instructionsPerSecond : Nat
  deriving DecidableEq, Repr

/-- The legal values of R35: four bits, and an `instructions_per_second` of at least 1. -/
def Cfg.legal (c : Cfg) : Bool := decide (1 ≤ c.instructionsPerSecond)

/-- `KEY_INDEX_POLICY` (R7, R186): which key a V[X] above 15 selects. -/
inductive KeyIndexPolicy where
  /-- the low nibble of V[X] -/
  | mask4
  /-- the fault `BadKeyIndex` -/
  | fault
  deriving DecidableEq, Repr

/-- `FX0A_KEY_CHOICE` (R7, R182): which of several pressed keys FX0A stores. -/
inductive KeyChoice where
  /-- any pressed key, a free draw -/
  | any
  /-- the lowest-numbered pressed key -/
  | lowest
  deriving DecidableEq, Repr

/-- `MEM_INIT` (R7, R38): what a byte holds that neither the font nor the program wrote. -/
inductive MemInit where
  /-- this byte everywhere -/
  | fill (b : Byte)
  /-- any value (spec/93_implementation_defined.md U4) -/
  | unspecified
  deriving DecidableEq, Repr

/-- The parameters the spec adds where its source is silent (R7); `IPF` is computed from `Cfg`. -/
structure Params where
  /-- `FONT`, the 80 bytes of 16 glyphs -/
  font : Vector Byte 80
  /-- `MEM_INIT` -/
  memInit : MemInit
  /-- `FX1E_CLEAR_VF` -/
  fx1eClearVf : Bool
  /-- `KEY_INDEX_POLICY` -/
  keyIndexPolicy : KeyIndexPolicy
  /-- `FX0A_KEY_CHOICE` -/
  fx0aKeyChoice : KeyChoice
  deriving DecidableEq, Repr

/-- The host's random bytes, in the order CXNN consumes them (spec/45_scheduler_and_host.md R216).
DESIGN CHOICE, safe: a free value, log entry 1. -/
opaque Config.randomByte : Nat → Byte

/-- The draws of FX0A's `choose` (spec/44_keys_timers.md R182), in the order they are made.
DESIGN CHOICE, safe: a free value, log entry 1. -/
opaque Config.keyDraw : Nat → Nat

/-- What address `a` holds after the `k`-th program load where `MEM_INIT` is unspecified (R7).
DESIGN CHOICE, safe: a free value, log entry 4. -/
opaque Config.unwrittenByte : (k : Nat) → (a : Nat) → Byte

end Sys2Proof
end

