-- ==== Sys2Proof/Machine/Defaults.lean ====
section
/-! DEFINITION. The default configuration (spec/00_scope.md R6), the default parameters (R7) and the font table
(spec/10_state.md R23). -/

namespace Sys2Proof

/-- R6's defaults: 700 instructions per second, the overflow flag on, the three legacy flags off. -/
def defaultCfg : Cfg :=
  { legacyShift := false
    legacyJumpWithVx := false
    indexOverflowFlag := true
    legacyStoreLoadAdvancesIndex := false
    instructionsPerSecond := 700 }

/-- Glyphs 0 to 7 of R23. -/
def fontLow : List Byte :=
  [0xF0, 0x90, 0x90, 0x90, 0xF0] ++ [0x20, 0x60, 0x20, 0x20, 0x70] ++ [0xF0, 0x10, 0xF0, 0x80, 0xF0] ++
  [0xF0, 0x10, 0xF0, 0x10, 0xF0] ++ [0x90, 0x90, 0xF0, 0x10, 0x10] ++ [0xF0, 0x80, 0xF0, 0x10, 0xF0] ++
  [0xF0, 0x80, 0xF0, 0x90, 0xF0] ++ [0xF0, 0x10, 0x20, 0x40, 0x40]

/-- Glyphs 8 to F of R23. -/
def fontHigh : List Byte :=
  [0xF0, 0x90, 0xF0, 0x90, 0xF0] ++ [0xF0, 0x90, 0xF0, 0x10, 0xF0] ++ [0xF0, 0x90, 0xF0, 0x90, 0x90] ++
  [0xE0, 0x90, 0xE0, 0x90, 0xE0] ++ [0xF0, 0x80, 0x80, 0x80, 0xF0] ++ [0xE0, 0x90, 0x90, 0x90, 0xE0] ++
  [0xF0, 0x80, 0xF0, 0x80, 0xF0] ++ [0xF0, 0x80, 0xF0, 0x80, 0x80]

/-- The default `FONT`. PRESUMED, unsafe: general knowledge of CHIP-8 (spec decision D17), log entry 3. -/
def defaultFont : Vector Byte 80 := ⟨(fontLow ++ fontHigh).toArray, rfl⟩

/-- R7's defaults. -/
def defaultParams : Params :=
  { font := defaultFont
    memInit := .fill 0x00
    fx1eClearVf := false
    keyIndexPolicy := .mask4
    fx0aKeyChoice := .any }

end Sys2Proof
end

