-- ==== Sys2Proof/Machine/State.lean ====
section
/-! DEFINITION. The state of the machine (spec/10_state.md R20), the reasons a step can stop, and the state after
power-on (spec/70_reset_and_hazards.md R261). -/

namespace Sys2Proof.Machine

/-- The error kinds of spec/60_exceptions.md R231. The spec gives them names and no codes. -/
inductive ErrorKind where
  /-- a program load of more than 3584 bytes; never halts a machine -/
  | romTooLarge
  /-- 2NNN with 16 entries on the stack -/
  | stackOverflow
  /-- 00EE with none -/
  | stackUnderflow
  /-- an address at or above 4096 -/
  | outOfBoundsAccess
  /-- an undefined word (spec decision D1) -/
  | illegalInstruction
  /-- V[X] above 15 under the policy `fault` (spec decision D14) -/
  | badKeyIndex
  deriving DecidableEq, Repr

/-- The scheduler's state `RUN` (R34). -/
inductive RunState where
  /-- loaded, nothing executes -/
  | idle
  /-- frame ticks and instruction steps occur -/
  | running
  /-- a fault happened: its kind, and the address of the instruction that raised it -/
  | halted (kind : ErrorKind) (pc : Word)
  deriving DecidableEq, Repr

/-- The output events of the boundary (spec/45_scheduler_and_host.md R213). Both carry no more than their name. -/
inductive Signal where
  /-- `Render`, "frame ready" (R218) -/
  | render
  /-- `load_error` with `RomTooLarge` (R214) -/
  | loadError
  deriving DecidableEq, Repr

/-- What the host does, in the order it does it (R200, R213). -/
inductive HostEvent where
  /-- nothing, for one step of the machine (the model's own: it says where the next event lands) -/
  | wait
  /-- the setter "key K is currently pressed/released" (R215) -/
  | key (k : Fin 16) (pressed : Bool)
  /-- the command `Start` (R208) -/
  | start
  /-- the command `Stop` (R210) -/
  | stop
  /-- the command `Reset(rom, cfg)`, program load (R214, R260) -/
  | reset (rom : List Byte) (cfg : Cfg)
  deriving DecidableEq, Repr

/-- Memory: the bytes that differ from what the last load left, at strictly rising addresses
(`Memory.wf` in Machine/Ops.lean). -/
abbrev Memory := List Host.Cell

/-- The framebuffer: row y, and in a row bit x is the pixel of column x (R32). -/
abbrev Screen := Vector (BitVec 64) 32

/-- The state of R20, and after it the boundary's and the model's own fields. -/
structure State where
  /-- `mem`, 4096 bytes (R23, R50) -/
  mem : Memory
  /-- V0 to VF (R21); register 15 is VF (R22) -/
  v : Vector Byte 16
  /-- `I` (R31) -/
  index : Word
  /-- `PC` (R24) -/
  pc : Word
  /-- the call stack `S[0] .. S[SP-1]`; `SP` is its length (R27, R29) -/
  stack : List Word
  /-- the delay timer `DT` (R30) -/
  dt : Byte
  /-- the sound timer `ST` (R30) -/
  st : Byte
  /-- `FB` (R32) -/
  fb : Screen
  /-- the key snapshot `KEY`, bit k for key k (R33) -/
  key : BitVec 16
  /-- `RUN` (R34) -/
  run : RunState
  /-- `cfg` (R35) -/
  cfg : Cfg
  /-- `REM`, the instruction steps left in the batch (R36) -/
  rem : Nat
  /-- the parameters of R7, constant for a machine -/
  params : Params
  /-- the input level `KEY_IN` (R33, R215) -/
  keyIn : BitVec 16
  /-- MODEL: what the host will do, first thing first; a run's input (log entry 5) -/
  host : List HostEvent
  /-- MODEL: the output events emitted so far, newest first (R213; log entry 10) -/
  signals : List Signal
  /-- MODEL: how many random bytes CXNN has consumed (R216; log entry 1) -/
  randDraws : Nat
  /-- MODEL: how many draws FX0A has made (R182; log entry 1) -/
  keyDraws : Nat
  /-- MODEL: how many program loads have succeeded since power-on (log entry 4) -/
  loads : Nat
  deriving DecidableEq, Repr

/-- Why a step has no next state. -/
inductive Fault where
  /-- raised by `step` alone, in a machine that is already `Halted` and whose host does nothing more: no event is
  possible in it (R209, R211). The halt itself is a next state, which holds the report. Safe: the machine stays. -/
  | halted (kind : ErrorKind) (pc : Word)
  deriving DecidableEq, Repr

/-- Why the model gives no meaning. -/
inductive Refusal where
  /-- raised by `exec` for an instruction that has no meaning yet; no arm uses it. Safe: nothing follows from it. -/
  | notModelled (mnemonic : String)
  deriving DecidableEq, Repr

/-- The power-on state: R260 with an empty ROM and the default configuration (R261). The zeros are the spec's
decision D16 (log entry 2); the fields after `rem` are the model's (log entries 3, 5, 10, 1, 4). -/
def State.reset : State :=
  { mem := []
    v := Vector.replicate 16 0x00
    index := 0x0000
    pc := 0x0200
    stack := []
    dt := 0x00
    st := 0x00
    fb := Vector.replicate 32 0
    key := 0x0000
    run := .idle
    cfg := defaultCfg
    rem := 0
    params := defaultParams
    keyIn := 0x0000
    host := []
    signals := []
    randDraws := 0
    keyDraws := 0
    loads := 0 }

end Sys2Proof.Machine
end

