-- ==== Sys2Proof/Machine/Ops.lean ====
section
/-! DEFINITION. The named operations over memory, registers and the stack (spec/00_scope.md R10), and `raise`, what a
fault does (spec/60_exceptions.md R232). There is no return from a fault (R235). -/

namespace Sys2Proof.Machine

/-- What a meaning and a step answer. -/
abbrev Result := Host.Outcome State Fault Refusal

/-! ### Memory (spec/20_memory.md R50 to R62) -/

/-- What an unlisted address reads as: the font table, and `MEM_INIT` elsewhere (R38, R260). `k` counts the loads
and matters only where `MEM_INIT` is unspecified. -/
def background (p : Params) (k : Nat) (a : Nat) : Byte :=
  if h : 0x050 ≤ a ∧ a ≤ 0x09F then p.font[a - 0x050]'(by omega)
  else match p.memInit with
    | .fill b => b
    | .unspecified => Config.unwrittenByte k a

/-- The byte at `a`: the listed one, else what `bg` says of an unlisted address. -/
def Memory.get (bg : Nat → Byte) : Memory → Nat → Byte
  | [], a => bg a
  | (b, x) :: m, a => if a = b then x else Memory.get bg m a

/-- `x` listed at `a`, the addresses kept rising. -/
def Memory.insert (a : Nat) (x : Byte) : Memory → Memory
  | [] => [(a, x)]
  | (b, y) :: m =>
    if b < a then (b, y) :: Memory.insert a x m
    else if a = b then (a, x) :: m
    else (a, x) :: (b, y) :: m

/-- `x` written at `a`; a byte equal to what an unlisted address reads as is not listed. -/
def Memory.set (bg : Nat → Byte) (m : Memory) (a : Nat) (x : Byte) : Memory :=
  if x = bg a then m.filter (fun c => c.1 ≠ a) else Memory.insert a x m

/-- The canonical form: addresses strictly rising and below 4096, no entry equal to what an unlisted address reads
as. -/
abbrev Memory.wf (bg : Nat → Byte) (m : Memory) : Prop :=
  m.Pairwise (fun c d => c.1 < d.1) ∧ ∀ c ∈ m, c.1 < 4096 ∧ c.2 ≠ bg c.1

/-- What an unlisted address of this machine reads as. -/
def State.background (s : State) : Nat → Byte := Machine.background s.params s.loads

/-- `mem[a]`, the read of one byte. A meaning checks its addresses first (R52, R151). -/
def State.byteAt (s : State) (a : Nat) : Byte := Memory.get s.background s.mem a

/-- `mem[a] <- x`, the write of one byte. -/
def State.setByte (s : State) (a : Nat) (x : Byte) : State :=
  { s with mem := Memory.set s.background s.mem a x }

/-- Bytes written at `a`, `a + 1`, ... in that order (R54, R56). -/
def State.storeBytes (s : State) (a : Nat) : List Byte → State
  | [] => s
  | x :: xs => (s.setByte a x).storeBytes (a + 1) xs

/-! ### Registers -/

/-- `V[r]`. -/
def State.reg (s : State) (r : Reg) : Byte := s.v[r]

/-- `V[r] <- x`. No register is hardwired (R21). -/
def State.setReg (s : State) (r : Reg) (x : Byte) : State := { s with v := s.v.set r.val x }

/-- VF, register 15 (R22). -/
abbrev vf : Reg := 15

/-- `PC <- t`; no target is checked when it is stored (R26, R108). -/
def State.setPc (s : State) (t : Word) : State := { s with pc := t }

/-- `I <- a`. -/
def State.setIndex (s : State) (a : Word) : State := { s with index := a }

/-- The result into `V[x]`, then the flag into VF: the flag is the last write (R121; spec decision D13). -/
def State.setResultFlag (s : State) (x : Reg) (result flag : Byte) : State :=
  (s.setReg x result).setReg vf flag

/-- `V[0..x]`, the bytes FX55 stores, V0 first (R155). -/
def State.regsThrough (s : State) (x : Reg) : List Byte := s.v.toList.take (x.val + 1)

/-- `V[i] <- mem[a + i]` for i = 0 .. x; the registers above x keep their values (R156). -/
def State.loadRegs (s : State) (x : Reg) (a : Nat) : State :=
  { s with v := Vector.ofFn fun r : Fin 16 => if r.val ≤ x.val then s.byteAt (a + r.val) else s.v[r] }

/-- One output event (R213, R218). -/
def State.emit (s : State) (e : Signal) : State := { s with signals := e :: s.signals }

/-! ### Faults (R232) -/

/-- `RUN <- Halted(K, pc0)` and nothing else. -/
def State.raiseAt (s : State) (k : ErrorKind) (pc0 : Word) : State := { s with run := .halted k pc0 }

/-- `raise K` after the fetch, when PC is pc0 + 2: a decode or an execute fault (R232 b, d). -/
def State.raise (s : State) (k : ErrorKind) : State := s.raiseAt k (s.pc - 2)

/-- An instruction whose highest address is `last` faults when that is at or above 4096, before any of its writes
(R52, R151 b, R232 a); otherwise it goes on as `k` says. -/
def State.guardAddress (s : State) (last : Nat) (k : Result) : Result :=
  if 4096 ≤ last then .next (s.raise .outOfBoundsAccess) else k

/-! ### The call stack (R27 to R29) -/

/-- `Push(a)`; none when `SP = 16`. -/
def State.push (s : State) (a : Word) : Option State :=
  if 16 ≤ s.stack.length then none else some { s with stack := s.stack ++ [a] }

/-- `Pop()`: the top `S[SP-1]` and the state without it; none when `SP = 0`. -/
def State.pop (s : State) : Option (Word × State) :=
  s.stack.getLast?.map fun a => (a, { s with stack := s.stack.dropLast })

end Sys2Proof.Machine
end

