-- ==== Sys2Proof/Machine/Flags.lean ====
section
/-! DEFINITION. Every flag computation (spec/10_state.md R22, spec/41_alu.md R120). VF is the only flag; the values
compared are those from before the instruction. -/

namespace Sys2Proof.Machine

/-- A flag as the byte VF takes: 1 or 0. -/
def flagByte (b : Bool) : Byte := if b then 1 else 0

/-- 8XY4: 1 if the sum of the two bytes is above 255 (R128). -/
def carryFlag (a b : Byte) : Byte := flagByte (255 < a.toNat + b.toNat)

/-- 8XY5 and 8XY7: 1 if `a - b` needs no borrow, that is a ≥ b (R129, R130). -/
def noBorrowFlag (a b : Byte) : Byte := flagByte (b.toNat ≤ a.toNat)

/-- 8XY6: the bit shifted out, bit 0 of the value shifted (R131). -/
def shiftedOutRight (a : Byte) : Byte := flagByte (a.getLsbD 0)

/-- 8XYE: the bit shifted out, bit 7 of the value shifted (R132). -/
def shiftedOutLeft (a : Byte) : Byte := flagByte (a.getLsbD 7)

/-- DXYN: 1 if a pixel that was on was toggled off (R171). -/
def collisionFlag (hit : Bool) : Byte := flagByte hit

/-- What FX1E does to VF, given the new value of I (R152): with the overflow flag configured, 1 at or above 0x1000;
below it nothing, unless the parameter `FX1E_CLEAR_VF` says 0 (spec decision D8). -/
def State.indexFlag (s : State) (sum : Nat) : State :=
  if s.cfg.indexOverflowFlag then
    if 0x1000 ≤ sum then s.setReg vf 1
    else if s.params.fx1eClearVf then s.setReg vf 0
    else s
  else s

end Sys2Proof.Machine
end

