-- ==== Sys2Proof/Machine/Operands.lean ====
section
/-! DEFINITION. Every operand form: the values an instruction computes from its fields and the state before it writes
anything. -/

namespace Sys2Proof.Machine

/-- A 12-bit address as a 16-bit value (R73, R150: zero-extended, unscaled, absolute). -/
def addrWord (nnn : Addr12) : Word := nnn.setWidth 16

/-- The value 8XY6 and 8XYE shift: V[Y] under `legacy_shift`, else V[X] (R131, R132). -/
def State.shiftSource (s : State) (x y : Reg) : Byte := if s.cfg.legacyShift then s.reg y else s.reg x

/-- The register BNNN adds: V[X] under `legacy_jump_with_vx`, else V0 (R103). -/
def State.jumpOffset (s : State) (x : Reg) : Byte := if s.cfg.legacyJumpWithVx then s.reg x else s.reg 0

/-- BNNN's target, NNN plus the offset, not reduced (R103). -/
def State.jumpTarget (s : State) (x : Reg) (nnn : Addr12) : Word :=
  addrWord nnn + (s.jumpOffset x).setWidth 16

/-- The address I + k, I at its full 16 bits (spec/20_memory.md R57). -/
def State.indexed (s : State) (k : Nat) : Nat := s.index.toNat + k

/-- FX29's glyph address, 0x050 + 5 × the low nibble (R153). -/
def glyphAddress (b : Byte) : Word := BitVec.ofNat 16 (0x050 + 5 * (b.toNat % 16))

/-- FX33's digits: hundreds, tens, units (R154). -/
def bcdDigits (b : Byte) : List Byte :=
  [BitVec.ofNat 8 (b.toNat / 100), BitVec.ofNat 8 (b.toNat / 10 % 10), BitVec.ofNat 8 (b.toNat % 10)]

/-- DXYN's start column, V[X] mod 64 (R171). -/
def State.startColumn (s : State) (x : Reg) : Nat := (s.reg x).toNat % 64

/-- DXYN's start row, V[Y] mod 32 (R171). -/
def State.startRow (s : State) (y : Reg) : Nat := (s.reg y).toNat % 32

/-- The low nibble of a byte as a key number. -/
def lowKey (b : Byte) : Fin 16 := (b.extractLsb' 0 4).toFin

/-- The key EX9E and EXA1 test; none where the policy `fault` raises `BadKeyIndex` (R186; spec decision D14). -/
def State.keyNumber (s : State) (b : Byte) : Option (Fin 16) :=
  match s.params.keyIndexPolicy with
  | .mask4 => some (lowKey b)
  | .fault => if 15 < b.toNat then none else some (lowKey b)

/-- `KEY[k] = 1`: the snapshot, never the input level (R33, R187). -/
def State.pressed (s : State) (k : Fin 16) : Bool := s.key.getLsbD k.val

/-- The pressed keys, lowest first (R182). -/
def State.pressedKeys (s : State) : List (Fin 16) := (List.finRange 16).filter fun k => s.pressed k

/-- FX0A's `choose` among the pressed keys `k :: ks`: the lowest, or any of them, a free draw that moves the draw
counter on (R182; spec decision D15). -/
def State.chooseKey (s : State) (k : Fin 16) (ks : List (Fin 16)) : Fin 16 × State :=
  match s.params.fx0aKeyChoice with
  | .lowest => (k, s)
  | .any => ((k :: ks).getD (Config.keyDraw s.keyDraws % (ks.length + 1)) k, { s with keyDraws := s.keyDraws + 1 })

/-- `RandomByte()`: the next byte of the host's source, and the state that has consumed it (R133, R216). -/
def State.randomByte (s : State) : Byte × State :=
  (Config.randomByte s.randDraws, { s with randDraws := s.randDraws + 1 })

/-- A key's code as the byte FX0A stores. -/
def keyCode (k : Fin 16) : Byte := BitVec.ofNat 8 k.val

end Sys2Proof.Machine
end

