-- ==== Sys2Proof/Machine/Alu.lean ====
section
/-! DEFINITION. Register file and 8-bit ALU instructions (spec/41_alu.md). Each starts after the fetch, leaves PC
alone and cannot fault (R135). -/

namespace Sys2Proof.Machine

/-- 6XNN, R122. -/
def execLdImm (x : Reg) (nn : Byte) (s : State) : Result := .next (s.setReg x nn)

/-- 7XNN, R123: no flag. -/
def execAddImm (x : Reg) (nn : Byte) (s : State) : Result := .next (s.setReg x (s.reg x + nn))

/-- 8XY0, R124. -/
def execLdReg (x y : Reg) (s : State) : Result := .next (s.setReg x (s.reg y))

/-- 8XY1, R125: VF is not written (R134). -/
def execOrReg (x y : Reg) (s : State) : Result := .next (s.setReg x (s.reg x ||| s.reg y))

/-- 8XY2, R126: VF is not written (R134). -/
def execAndReg (x y : Reg) (s : State) : Result := .next (s.setReg x (s.reg x &&& s.reg y))

/-- 8XY3, R127: VF is not written (R134). -/
def execXorReg (x y : Reg) (s : State) : Result := .next (s.setReg x (s.reg x ^^^ s.reg y))

/-- 8XY4, R128. -/
def execAddReg (x y : Reg) (s : State) : Result :=
  let a := s.reg x
  let b := s.reg y
  .next (s.setResultFlag x (a + b) (carryFlag a b))

/-- 8XY5, R129. -/
def execSub (x y : Reg) (s : State) : Result :=
  let a := s.reg x
  let b := s.reg y
  .next (s.setResultFlag x (a - b) (noBorrowFlag a b))

/-- 8XY7, R130: the operands the other way round; the destination is still V[X]. -/
def execSubn (x y : Reg) (s : State) : Result :=
  let a := s.reg x
  let b := s.reg y
  .next (s.setResultFlag x (b - a) (noBorrowFlag b a))

/-- 8XY6, R131: a logical shift by one. -/
def execShr (x y : Reg) (s : State) : Result :=
  let a := s.shiftSource x y
  .next (s.setResultFlag x (a >>> 1) (shiftedOutRight a))

/-- 8XYE, R132. -/
def execShl (x y : Reg) (s : State) : Result :=
  let a := s.shiftSource x y
  .next (s.setResultFlag x (a <<< 1) (shiftedOutLeft a))

/-- CXNN, R133: one random byte is consumed, whatever NN is. -/
def execRnd (x : Reg) (nn : Byte) (s : State) : Result :=
  let (r, t) := s.randomByte
  .next (t.setReg x (r &&& nn))

end Sys2Proof.Machine
end

