-- ==== Sys2Proof/Machine/Display.lean ====
section
/-! DEFINITION. Framebuffer instructions (spec/43_display.md): clear and XOR draw, clipped at the edges. -/

namespace Sys2Proof.Machine

/-- Pixel (x, y) of a framebuffer: `FB[y][x]`, column x of row y (R32); off the screen there is no pixel. -/
def screenPixel (fb : Screen) (x y : Nat) : Bool := if h : y < 32 then fb[y].getLsbD x else false

/-- Pixel (x, y) of the machine's framebuffer. -/
def State.pixel (s : State) (x y : Nat) : Bool := screenPixel s.fb x y

/-- 00E0, R170: no render signal of its own. -/
def execCls (s : State) : Result := .next { s with fb := Vector.replicate 32 0 }

/-- Bits `b`, `b + 1`, ..., `left` of them, of a sprite byte drawn into a framebuffer row from start column `x0`, bit 7
first; drawing stops beyond column 63. The Bool is the collision so far (R171, inner loop). -/
def drawBits (byte : Byte) (x0 : Nat) : (left b : Nat) → BitVec 64 × Bool → BitVec 64 × Bool
  | 0, _, p => p
  | left + 1, b, (row, hit) =>
    if 63 < x0 + b then (row, hit)
    else if byte.getLsbD (7 - b) then
      drawBits byte x0 left (b + 1) (row ^^^ (1#64 <<< (x0 + b)), hit || row.getLsbD (x0 + b))
    else drawBits byte x0 left (b + 1) (row, hit)

/-- Rows `r`, `r + 1`, ..., `left` of them, of the sprite whose row r is the byte `sprite r`, drawn from row `y0`;
drawing stops beyond row 31 (R171, outer loop). -/
def drawRows (sprite : Nat → Byte) (x0 y0 : Nat) : (left r : Nat) → Screen × Bool → Screen × Bool
  | 0, _, p => p
  | left + 1, r, (fb, hit) =>
    if h : y0 + r < 32 then
      let (row, hit') := drawBits (sprite r) x0 8 0 (fb[y0 + r], hit)
      drawRows sprite x0 y0 left (r + 1) (fb.set (y0 + r) row, hit')
    else (fb, hit)

/-- The highest sprite address, for the check over all N rows (spec decision D11); 0 rows check nothing. -/
def State.spriteTop (s : State) (n : Nibble) : Nat := if n.toNat = 0 then 0 else s.indexed (n.toNat - 1)

/-- The sprite drawn, VF set to the collision flag, one render signal emitted whatever was drawn (R171, R174). The
coordinates are those from before VF is written (spec decision D12). -/
def State.drawSprite (s : State) (x y : Reg) (n : Nibble) : State :=
  let (fb, hit) := drawRows (fun r => s.byteAt (s.indexed r)) (s.startColumn x) (s.startRow y) n.toNat 0 (s.fb, false)
  ({ s with fb := fb }.setReg vf (collisionFlag hit)).emit .render

/-- DXYN, R171. -/
def execDrw (x y : Reg) (n : Nibble) (s : State) : Result :=
  s.guardAddress (s.spriteTop n) (.next (s.drawSprite x y n))

end Sys2Proof.Machine
end

