-- ==== Sys2Proof/Machine/Flow.lean ====
section
/-! DEFINITION. Control transfer (spec/40_flow.md). Each starts after the fetch, with PC = pc0 + 2; no target is
checked (R108). -/

namespace Sys2Proof.Machine

/-- Skip the next instruction, PC += 2, if `c` (R109). -/
def State.skipIf (s : State) (c : Bool) : State := if c then s.setPc (s.pc + 2) else s

/-- 1NNN, R100. -/
def execJp (nnn : Addr12) (s : State) : Result := .next (s.setPc (addrWord nnn))

/-- 2NNN, R101: the pushed value is the advanced PC. -/
def execCall (nnn : Addr12) (s : State) : Result :=
  match s.push s.pc with
  | some t => .next (t.setPc (addrWord nnn))
  | none => .next (s.raise .stackOverflow)

/-- 00EE, R102. -/
def execRet (s : State) : Result :=
  match s.pop with
  | some (a, t) => .next (t.setPc a)
  | none => .next (s.raise .stackUnderflow)

/-- BNNN, R103. -/
def execJpV0 (x : Reg) (nnn : Addr12) (s : State) : Result := .next (s.setPc (s.jumpTarget x nnn))

/-- 3XNN, R104. -/
def execSeImm (x : Reg) (nn : Byte) (s : State) : Result := .next (s.skipIf (s.reg x == nn))

/-- 4XNN, R105. -/
def execSneImm (x : Reg) (nn : Byte) (s : State) : Result := .next (s.skipIf (s.reg x != nn))

/-- 5XY0, R106. -/
def execSeReg (x y : Reg) (s : State) : Result := .next (s.skipIf (s.reg x == s.reg y))

/-- 9XY0, R107. -/
def execSneReg (x y : Reg) (s : State) : Result := .next (s.skipIf (s.reg x != s.reg y))

end Sys2Proof.Machine
end

