-- ==== Sys2Proof/Machine/Index.lean ====
section
/-! DEFINITION. Index register and memory transfer (spec/42_index_memory.md). Every fault check comes before every
write (R151 b). -/

namespace Sys2Proof.Machine

/-- ANNN, R150. -/
def execLdI (nnn : Addr12) (s : State) : Result := .next (s.setIndex (addrWord nnn))

/-- FX1E, R152: a sum that 16 bits cannot hold is a fault (spec decision D9); a sum from 0x1000 up is stored. -/
def execAddI (x : Reg) (s : State) : Result :=
  let sum := s.index.toNat + (s.reg x).toNat
  if 0xFFFF < sum then .next (s.raise .outOfBoundsAccess)
  else .next ((s.setIndex (BitVec.ofNat 16 sum)).indexFlag sum)

/-- FX29, R153: no memory is read. -/
def execLdF (x : Reg) (s : State) : Result := .next (s.setIndex (glyphAddress (s.reg x)))

/-- FX33, R154: the digits at I, I + 1, I + 2; I is not changed. -/
def execLdB (x : Reg) (s : State) : Result :=
  s.guardAddress (s.indexed 2) (.next (s.storeBytes (s.indexed 0) (bcdDigits (s.reg x))))

/-- The highest value FX55 and FX65 check: the last byte moved, or under the legacy advance the new I (R157; spec
decision D10). -/
def State.transferTop (s : State) (x : Reg) : Nat :=
  if s.cfg.legacyStoreLoadAdvancesIndex then s.indexed (x.val + 1) else s.indexed x.val

/-- I after FX55 and FX65: I + X + 1 under the legacy advance, else as before (R155, R156). -/
def State.indexAfterTransfer (s : State) (x : Reg) : Word :=
  if s.cfg.legacyStoreLoadAdvancesIndex then BitVec.ofNat 16 (s.indexed (x.val + 1)) else s.index

/-- FX55, R155. -/
def execStRegs (x : Reg) (s : State) : Result :=
  s.guardAddress (s.transferTop x)
    (.next ((s.storeBytes (s.indexed 0) (s.regsThrough x)).setIndex (s.indexAfterTransfer x)))

/-- FX65, R156. -/
def execLdRegs (x : Reg) (s : State) : Result :=
  s.guardAddress (s.transferTop x)
    (.next ((s.loadRegs x (s.indexed 0)).setIndex (s.indexAfterTransfer x)))

end Sys2Proof.Machine
end

