-- ==== Sys2Proof/Machine/Keys.lean ====
section
/-! DEFINITION. Key and timer instructions (spec/44_keys_timers.md). The keys are the snapshot of the last frame tick
(R187). -/

namespace Sys2Proof.Machine

/-- EX9E, R180. -/
def execSkp (x : Reg) (s : State) : Result :=
  match s.keyNumber (s.reg x) with
  | some k => .next (s.skipIf (s.pressed k))
  | none => .next (s.raise .badKeyIndex)

/-- EXA1, R181. -/
def execSknp (x : Reg) (s : State) : Result :=
  match s.keyNumber (s.reg x) with
  | some k => .next (s.skipIf (!s.pressed k))
  | none => .next (s.raise .badKeyIndex)

/-- FX0A, R182: with no key pressed PC goes back to this instruction. -/
def execLdVxK (x : Reg) (s : State) : Result :=
  match s.pressedKeys with
  | [] => .next (s.setPc (s.pc - 2))
  | k :: ks =>
    let (chosen, t) := s.chooseKey k ks
    .next (t.setReg x (keyCode chosen))

/-- FX07, R183 (spec decision D22). -/
def execLdVxDt (x : Reg) (s : State) : Result := .next (s.setReg x s.dt)

/-- FX15, R184 (spec decision D22). -/
def execLdDtVx (x : Reg) (s : State) : Result := .next { s with dt := s.reg x }

/-- FX18, R185 (spec decision D22). -/
def execLdStVx (x : Reg) (s : State) : Result := .next { s with st := s.reg x }

/-- The output `sound_on`, on exactly while ST is above 0 (R219). -/
def State.soundOn (s : State) : Bool := decide (0 < s.st.toNat)

end Sys2Proof.Machine
end

