-- ==== Sys2Proof/Machine/Scheduler.lean ====
section
/-! DEFINITION. The events of the machine (spec/45_scheduler_and_host.md R200): the instruction step, the frame tick,
and what the host does. -/

namespace Sys2Proof.Machine

/-- `IPF`, the instruction steps of a frame, floor(instructions_per_second / 60) (R204). -/
def State.ipf (s : State) : Nat := s.cfg.instructionsPerSecond / 60

/-! ### The instruction step -/

/-- The two bytes an instruction step fetches (R201). -/
def State.fetchBytes (s : State) : List Byte := [s.byteAt s.pc.toNat, s.byteAt (s.pc.toNat + 1)]

/-- The state the execute phase sees: the step counted, PC advanced (R201, R202). -/
def State.fetched (s : State) : State := { s with rem := s.rem - 1, pc := s.pc + 2 }

/-- The end of a batch: the step that brings REM to 0 without a fault emits the frame's render signal (R201, R207). -/
def State.endOfBatch (t : State) : State := if t.run = .running ∧ t.rem = 0 then t.emit .render else t

/-- `InstrStep` (R201): fetch, PC advance, decode, execute, end of batch. -/
def instrStep (s : State) : Result :=
  if 4096 ≤ s.pc.toNat + 1 then .next ({ s with rem := s.rem - 1 }.raiseAt .outOfBoundsAccess s.pc)
  else match decode s.fetchBytes with
    | .error _ => .next (s.fetched.raise .illegalInstruction)
    | .ok (i, _) =>
      match exec i s.fetched with
      | .next t => .next t.endOfBatch
      | .fault f => .fault f
      | .refused r => .refused r

/-! ### The frame tick -/

/-- A timer's decrement, floor at 0 (R30, R206). -/
def countDown (t : Byte) : Byte := if t = 0 then 0 else t - 1

/-- `FrameTick(KEY_IN)` (R206); an empty batch ends at once (R207). -/
def frameTick (s : State) : State :=
  let t := { s with dt := countDown s.dt, st := countDown s.st, key := s.keyIn, rem := s.ipf }
  if s.ipf = 0 then t.emit .render else t

/-! ### The host -/

/-- Between frames: Running with REM = 0 (R200). -/
def State.betweenFrames (s : State) : Bool := decide (s.run = .running ∧ s.rem = 0)

/-- `RUN` is `Halted` (R34). -/
def State.isHalted (s : State) : Bool :=
  match s.run with
  | .halted _ _ => true
  | .idle | .running => false

/-- The guards of R200. A `Reset` whose configuration is outside R35's legal values is no event. -/
def HostEvent.enabled (s : State) : HostEvent → Bool
  | .wait => true
  | .key _ _ => true
  | .start => decide (s.run = .idle)
  | .stop => s.betweenFrames
  | .reset _ cfg => cfg.legal && (decide (s.run = .idle) || s.isHalted || s.betweenFrames)

/-- Bit `k` of `b` set to `x`. -/
def setBit (b : BitVec 16) (k : Fin 16) (x : Bool) : BitVec 16 :=
  if x then b ||| (1#16 <<< k.val) else b &&& ~~~(1#16 <<< k.val)

/-- The engine's state created anew by `Reset(rom, cfg)` (R260). The parameters, the host's side and the record of
signals are not the engine's state and stay (log entry 17). -/
def State.loadProgram (s : State) (rom : List Byte) (cfg : Cfg) : State :=
  ({ s with
      mem := []
      v := Vector.replicate 16 0x00
      index := 0x0000
      pc := 0x0200
      stack := []
      dt := 0x00
      st := 0x00
      fb := Vector.replicate 32 0
      key := 0x0000
      run := .idle
      cfg := cfg
      rem := 0
      loads := s.loads + 1 }).storeBytes 0x200 rom

/-- What a host event does where it happens: R208, R210, R215, R214. -/
def HostEvent.perform (s : State) : HostEvent → State
  | .wait => s
  | .key k x => { s with keyIn := setBit s.keyIn k x }
  | .start => { s with run := .running }
  | .stop => { s with run := .idle }
  | .reset rom cfg => if 3584 < rom.length then s.emit .loadError else s.loadProgram rom cfg

/-! ### The next event -/

/-- The machine's own next event (R200): an instruction step, or a frame tick when the batch is done. In `Idle` and
`Halted` it has none: the state stays, and a halted machine whose host does nothing more is at its end (log entry 7). -/
def machineTurn (s : State) : Result :=
  match s.run with
  | .running => if s.rem = 0 then .next (frameTick s) else instrStep s
  | .idle => .next s
  | .halted k pc => if s.host.isEmpty then .fault (.halted k pc) else .next s

/-- The next event: the host's, where its guard holds, else the machine's; a host event whose guard fails waits (log
entry 5). -/
def turn (s : State) : Result :=
  match s.host with
  | [] => machineTurn s
  | .wait :: rest => machineTurn { s with host := rest }
  | e :: rest => if e.enabled s then .next (e.perform { s with host := rest }) else machineTurn s

/-! ### Placing one instruction for the host's check -/

/-- Where the next instruction is fetched: PC, or the entry point where PC is an address no fetch can read. -/
def State.fetchAddress (s : State) : Word := if 4096 ≤ s.pc.toNat + 1 then 0x0200 else s.pc

/-- `s` about to run the instruction of word `w`: the word in memory at the fetch address, the machine Running inside a
batch, the host silent (log entry 8). -/
def State.placeWord (s : State) (w : Word) : State :=
  ({ s with
      pc := s.fetchAddress
      run := .running
      rem := if s.rem = 0 then max 1 s.ipf else s.rem
      host := [] }).storeBytes s.fetchAddress.toNat (bytesOfWord w)

end Sys2Proof.Machine
end

