-- ==== Sys2Proof/Safety.lean ====
section
/-! DEFINITION. The terms claims use: what a step leaves alone, the invariant of the machine, when an instruction
faults, and what a safe run is. -/

namespace Sys2Proof.Machine

/-! ### Frames -/

/-- The parts of the state, one for each field. -/
inductive Part where
  | mem | v | index | pc | stack | dt | st | fb | key | run | cfg | rem | params | keyIn | host | signals
  | randDraws | keyDraws | loads
  deriving DecidableEq, Repr

/-- The part is the same in both states; of memory, every byte reads the same. -/
def Part.same (s t : State) : Part → Prop
  | .mem => ∀ a, t.byteAt a = s.byteAt a
  | .v => t.v = s.v
  | .index => t.index = s.index
  | .pc => t.pc = s.pc
  | .stack => t.stack = s.stack
  | .dt => t.dt = s.dt
  | .st => t.st = s.st
  | .fb => t.fb = s.fb
  | .key => t.key = s.key
  | .run => t.run = s.run
  | .cfg => t.cfg = s.cfg
  | .rem => t.rem = s.rem
  | .params => t.params = s.params
  | .keyIn => t.keyIn = s.keyIn
  | .host => t.host = s.host
  | .signals => t.signals = s.signals
  | .randDraws => t.randDraws = s.randDraws
  | .keyDraws => t.keyDraws = s.keyDraws
  | .loads => t.loads = s.loads

/-- Every part not named is the same. -/
def KeepsAllBut (ps : List Part) (s t : State) : Prop := ∀ p, p ∉ ps → p.same s t

/-- Every register not named holds what it held. -/
def KeepsRegsBut (rs : List Reg) (s t : State) : Prop := ∀ r, r ∉ rs → t.reg r = s.reg r

end Sys2Proof.Machine

namespace Sys2Proof

/-! ### Who writes what (spec/10_state.md R39, its write columns) -/

/-- The parts an instruction may write in its execute phase: the columns of R39, `RUN` where R233 lists a fault, and
the boundary (a render signal, a random byte, a key draw). -/
def Instr.writes : Instr → List Machine.Part
  | .cls => [.fb]
  | .ret => [.pc, .stack, .run]
  | .jp _ => [.pc]
  | .call _ => [.pc, .stack, .run]
  | .seImm _ _ | .sneImm _ _ | .seReg _ _ | .sneReg _ _ => [.pc]
  | .ldImm _ _ | .addImm _ _ | .ldReg _ _ | .orReg _ _ | .andReg _ _ | .xorReg _ _ | .addReg _ _ | .sub _ _
  | .shr _ _ | .subn _ _ | .shl _ _ => [.v]
  | .ldI _ => [.index]
  | .jpV0 _ _ => [.pc]
  | .rnd _ _ => [.v, .randDraws]
  | .drw _ _ _ => [.v, .fb, .run, .signals]
  | .skp _ | .sknp _ => [.pc, .run]
  | .ldVxDt _ => [.v]
  | .ldVxK _ => [.v, .pc, .keyDraws]
  | .ldDtVx _ => [.dt]
  | .ldStVx _ => [.st]
  | .addI _ => [.v, .index, .run]
  | .ldF _ => [.index]
  | .ldB _ => [.mem, .run]
  | .stRegs _ => [.mem, .index, .run]
  | .ldRegs _ => [.v, .index, .run]

/-- The registers an instruction may write: the columns V[X] and VF of R39. -/
def Instr.writesRegs : Instr → List Reg
  | .ldImm x _ | .addImm x _ | .ldReg x _ | .orReg x _ | .andReg x _ | .xorReg x _ | .rnd x _ | .ldVxDt x
  | .ldVxK x => [x]
  | .addReg x _ | .sub x _ | .shr x _ | .subn x _ | .shl x _ => [x, 15]
  | .drw _ _ _ | .addI _ => [15]
  | .ldRegs x => (List.finRange 16).filter fun r => r.val ≤ x.val
  | .cls | .ret | .jp _ | .call _ | .seImm _ _ | .sneImm _ _ | .seReg _ _ | .sneReg _ _ | .ldI _ | .jpV0 _ _
  | .skp _ | .sknp _ | .ldDtVx _ | .ldStVx _ | .ldF _ | .ldB _ | .stRegs _ => []

/-- The instructions of spec/41_alu.md, the group R135 speaks of. -/
def Instr.isAlu : Instr → Bool
  | .ldImm _ _ | .addImm _ _ | .ldReg _ _ | .orReg _ _ | .andReg _ _ | .xorReg _ _ | .addReg _ _ | .sub _ _
  | .shr _ _ | .subn _ _ | .shl _ _ | .rnd _ _ => true
  | .cls | .ret | .jp _ | .call _ | .seImm _ _ | .sneImm _ _ | .seReg _ _ | .sneReg _ _ | .ldI _ | .jpV0 _ _
  | .drw _ _ _ | .skp _ | .sknp _ | .ldVxDt _ | .ldVxK _ | .ldDtVx _ | .ldStVx _ | .addI _ | .ldF _ | .ldB _
  | .stRegs _ | .ldRegs _ => false

/-! ### When an execute phase faults (spec/60_exceptions.md R233) -/

/-- The table of R233: the kind an instruction raises from this state, or none. -/
def Instr.executeFault (s : Machine.State) : Instr → Option Machine.ErrorKind
  | .call _ => if 16 ≤ s.stack.length then some .stackOverflow else none
  | .ret => if s.stack.length = 0 then some .stackUnderflow else none
  | .drw _ _ n =>
    if 1 ≤ n.toNat ∧ 4096 ≤ s.index.toNat + n.toNat - 1 then some .outOfBoundsAccess else none
  | .ldB _ => if 4096 ≤ s.index.toNat + 2 then some .outOfBoundsAccess else none
  | .stRegs x | .ldRegs x =>
    if 4096 ≤ s.index.toNat + x.val ∨
        (s.cfg.legacyStoreLoadAdvancesIndex = true ∧ 4096 ≤ s.index.toNat + x.val + 1)
      then some .outOfBoundsAccess else none
  | .addI x => if 0xFFFF < s.index.toNat + (s.reg x).toNat then some .outOfBoundsAccess else none
  | .skp x | .sknp x =>
    if s.params.keyIndexPolicy = .fault ∧ 15 < (s.reg x).toNat then some .badKeyIndex else none
  | .cls | .jp _ | .seImm _ _ | .sneImm _ _ | .seReg _ _ | .sneReg _ _ | .ldImm _ _ | .addImm _ _ | .ldReg _ _
  | .orReg _ _ | .andReg _ _ | .xorReg _ _ | .addReg _ _ | .sub _ _ | .shr _ _ | .subn _ _ | .shl _ _ | .ldI _
  | .jpV0 _ _ | .rnd _ _ | .ldVxDt _ | .ldVxK _ | .ldDtVx _ | .ldStVx _ | .ldF _ => none

end Sys2Proof

namespace Sys2Proof.Machine

/-! ### Encodings -/

/-- Every word whose masked bits are `val` decodes to the instruction `read` takes from its fields (R75). -/
def Encodes (mask val : Word) (read : Word → Instr) : Prop := ∀ w, w &&& mask = val → decodeWord w = .ok (read w)

/-! ### Memory, several bytes at once -/

/-- The `n` bytes from address `a` on. -/
def State.bytesAt (s : State) (a n : Nat) : List Byte := (List.range n).map fun k => s.byteAt (a + k)

/-! ### Drawing, in closed form (spec/43_display.md R171, R172) -/

/-- The sprite of DXYN covers pixel (px, py) with a 1 bit. -/
def State.spriteBit (s : State) (x y : Reg) (n : Nibble) (px py : Nat) : Bool :=
  let x0 := (s.reg x).toNat % 64
  let y0 := (s.reg y).toNat % 32
  decide (x0 ≤ px ∧ px < x0 + 8 ∧ y0 ≤ py ∧ py < y0 + n.toNat) &&
    (s.byteAt (s.index.toNat + (py - y0))).getLsbD (7 - (px - x0))

/-- On the screen: column 0 to 63, row 0 to 31 (R32). -/
def OnScreen (px py : Nat) : Prop := px < 64 ∧ py < 32

/-- A pixel that is on and that the sprite covers with a 1 bit. -/
def State.Collides (s : State) (x y : Reg) (n : Nibble) : Prop :=
  ∃ px py, OnScreen px py ∧ s.spriteBit x y n px py = true ∧ s.pixel px py = true

/-! ### The invariant -/

/-- What holds at reset and is kept by every step. -/
structure Inv (s : State) : Prop where
  /-- memory is in canonical form and lists no address outside 0x000 to 0xFFF (R50) -/
  memory : Memory.wf s.background s.mem
  /-- SP is 0 to 16 (R27) -/
  stackDepth : s.stack.length ≤ 16
  /-- a return address was pushed as some pc0 + 2 ≤ 0x1000 (R26) -/
  returnAddresses : ∀ a ∈ s.stack, a.toNat ≤ 0x1000
  /-- the largest value PC can be given is 0x10FE (R24, R26) -/
  pcRange : s.pc.toNat ≤ 0x10FE
  /-- REM is 0 to IPF (R20, R36) -/
  batch : s.rem ≤ s.cfg.instructionsPerSecond / 60
  /-- the configuration is legal (R35) -/
  cfgLegal : s.cfg.legal = true
  /-- `RomTooLarge` never halts a machine (R231) -/
  noLoadHalt : ∀ pc, s.run ≠ .halted .romTooLarge pc

/-! ### Runs -/

/-- `RUN` is not `Halted`: no fault has happened since the last load (R34). -/
def State.Unhalted (s : State) : Prop := s.isHalted = false

/-- A safe run of `n` steps: it answers a next state, and no fault halted the machine (R232: a halted state is never a
final state of a successful run). -/
def SafeRun (n : Nat) (s : State) : Prop := ∃ t, Sys2Proof.core.run n s = .next t ∧ State.Unhalted t

end Sys2Proof.Machine
end

