-- ==== Sys2Proof/Certificates/Slice0/Obligations.lean ====
section
/-! DEFINITION. The statements for the provers. Where a clause rests on one of the spec's own decisions D<n>
(spec/92_eei_decisions.md) or on a log entry of this model, the docstring says so. -/

open Sys2Proof Sys2Proof.Machine

/-! ### Encoding -/

/-- R75, first half, for every row: a decoded word has its row's bits under its row's mask, and every word with those
bits decodes to an instruction of that row. -/
def Obligations.WordsDecodeByMaskAndMatch : Prop :=
  (∀ (w : Word) (i : Instr), decodeWord w = .ok i → w &&& rowMask i = rowMatch i) ∧
  (∀ (w : Word) (i : Instr), w &&& rowMask i = rowMatch i →
    ∃ j, decodeWord w = .ok j ∧ rowMask j = rowMask i ∧ rowMatch j = rowMatch i)

/-- R86's list of the undefined encodings, category by category (spec decisions D1, D2, D3). -/
def Obligations.UndefinedWordsAreThoseListed : Prop :=
  ∀ w : Word, (∃ e, decodeWord w = .error e) ↔
    (w.toNat / 4096 = 0 ∧ w.toNat ≠ 0x00E0 ∧ w.toNat ≠ 0x00EE) ∨
    (w.toNat / 4096 = 5 ∧ w.toNat % 16 ≠ 0) ∨
    (w.toNat / 4096 = 8 ∧ w.toNat % 16 ∈ [0x8, 0x9, 0xA, 0xB, 0xC, 0xD, 0xF]) ∨
    (w.toNat / 4096 = 9 ∧ w.toNat % 16 ≠ 0) ∨
    (w.toNat / 4096 = 14 ∧ w.toNat % 256 ∉ [0x9E, 0xA1]) ∨
    (w.toNat / 4096 = 15 ∧ w.toNat % 256 ∉ [0x07, 0x0A, 0x15, 0x18, 0x1E, 0x29, 0x33, 0x55, 0x65])

/-- Every well-formed instruction, with every operand, is read back from its own word, and from that word's two bytes
in memory order whatever bytes follow. -/
def Obligations.DecodeOfEncodeIsTheInstruction : Prop :=
  ∀ i : Instr, i.wellFormed = true →
    decodeWord (encode i) = .ok i ∧ ∀ rest, decode (bytesOfWord (encode i) ++ rest) = .ok (i, rest)

/-- The other way: a word that decodes is the word of the instruction it decodes to, which is well-formed. So no two
words decode to one instruction. -/
def Obligations.EncodeOfDecodeIsTheWord : Prop :=
  ∀ (w : Word) (i : Instr), decodeWord w = .ok i → i.wellFormed = true ∧ encode i = w

/-- Words written out from the patterns of R75, one for each family of the table. That 5XYN with N not 0 is undefined is
the spec's decision D2 (log entry 12). -/
def Obligations.SampleWordsDecodeAsTheTableSays : Prop :=
  decodeWord 0x00E0#16 = .ok .cls ∧ decodeWord 0x00EE#16 = .ok .ret ∧ decodeWord 0x2ABC#16 = .ok (.call 0xABC#12) ∧
  decodeWord 0x332A#16 = .ok (.seImm 3 0x2A#8) ∧ decodeWord 0x5120#16 = .ok (.seReg 1 2) ∧
  decodeWord 0x8127#16 = .ok (.subn 1 2) ∧ decodeWord 0xB234#16 = .ok (.jpV0 2 0x234#12) ∧
  decodeWord 0xC30F#16 = .ok (.rnd 3 0x0F#8) ∧ decodeWord 0xD125#16 = .ok (.drw 1 2 0x5#4) ∧
  decodeWord 0xE49E#16 = .ok (.skp 4) ∧ decodeWord 0xF30A#16 = .ok (.ldVxK 3) ∧
  decodeWord 0xF255#16 = .ok (.stRegs 2) ∧ decodeWord 0x5121#16 = .error (.undefinedEncoding 0x5121#16)

/-! ### Flow control (spec/40_flow.md) -/

/-- R100. -/
def Obligations.JumpGoesToItsAddress : Prop :=
  Encodes 0xF000#16 0x1000#16 (fun w => .jp (fieldNNN w)) ∧
  ∀ (nnn : Addr12) (s : State), ∃ t, exec (.jp nnn) s = .next t ∧ t.pc.toNat = nnn.toNat ∧ KeepsAllBut [.pc] s t

/-- R101: below depth 16 the advanced PC is pushed on top and PC is NNN; at depth 16 nothing is pushed, PC is not set to
NNN and the machine halts with `StackOverflow`. That the halt leaves PC as the fetch advanced it, and all else, is the
spec's decision D5 (R232; log entry 18). -/
def Obligations.CallPushesTheAdvancedPc : Prop :=
  Encodes 0xF000#16 0x2000#16 (fun w => .call (fieldNNN w)) ∧
  ∀ (nnn : Addr12) (s : State),
    (s.stack.length < 16 → ∃ t, exec (.call nnn) s = .next t ∧ t.stack = s.stack ++ [s.pc] ∧
      t.pc.toNat = nnn.toNat ∧ KeepsAllBut [.pc, .stack] s t) ∧
    (s.stack.length = 16 → ∃ t p, exec (.call nnn) s = .next t ∧ t.run = .halted .stackOverflow p ∧
      KeepsAllBut [.run] s t)

/-- R102: the top entry is popped into PC as it is; with no entry the machine halts with `StackUnderflow`. That the halt
leaves PC as the fetch advanced it, and all else, is the spec's decision D5 (R232; log entry 18). -/
def Obligations.ReturnPopsIntoPc : Prop :=
  Encodes 0xFFFF#16 0x00EE#16 (fun _ => .ret) ∧
  ∀ s : State,
    (∀ st a, s.stack = st ++ [a] → ∃ t, exec .ret s = .next t ∧ t.pc = a ∧ t.stack = st ∧
      KeepsAllBut [.pc, .stack] s t) ∧
    (s.stack = [] → ∃ t p, exec .ret s = .next t ∧ t.run = .halted .stackUnderflow p ∧ KeepsAllBut [.run] s t)

/-- A call below the full depth, then a return, is back at the instruction after the call with the state it had. The
stack's shape is the spec's decision D26 (log entry 9). -/
def Obligations.ReturnUndoesCall : Prop :=
  ∀ (nnn : Addr12) (s : State), s.stack.length < 16 →
    ∃ t, exec (.call nnn) s = .next t ∧ t.pc.toNat = nnn.toNat ∧ exec .ret t = .next s

/-- R103 in both variants; the sum is not reduced, and the jump itself never faults (the latter the spec's decision
D7). -/
def Obligations.ComputedJumpAddsItsRegister : Prop :=
  Encodes 0xF000#16 0xB000#16 (fun w => .jpV0 (fieldX w) (fieldNNN w)) ∧
  ∀ (x : Reg) (nnn : Addr12) (s : State), ∃ t, exec (.jpV0 x nnn) s = .next t ∧
    t.pc.toNat = nnn.toNat + (if s.cfg.legacyJumpWithVx then (s.reg x).toNat else (s.reg 0).toNat) ∧
    KeepsAllBut [.pc] s t

/-- R104 and R105. -/
def Obligations.SkipsOnAnImmediate : Prop :=
  Encodes 0xF000#16 0x3000#16 (fun w => .seImm (fieldX w) (fieldNN w)) ∧
  Encodes 0xF000#16 0x4000#16 (fun w => .sneImm (fieldX w) (fieldNN w)) ∧
  ∀ (x : Reg) (nn : Byte) (s : State),
    (∃ t, exec (.seImm x nn) s = .next t ∧ t.pc = (if s.reg x = nn then s.pc + 2 else s.pc) ∧ KeepsAllBut [.pc] s t) ∧
    (∃ t, exec (.sneImm x nn) s = .next t ∧ t.pc = (if s.reg x ≠ nn then s.pc + 2 else s.pc) ∧ KeepsAllBut [.pc] s t)

/-- R106 and R107. -/
def Obligations.SkipsOnTwoRegisters : Prop :=
  Encodes 0xF00F#16 0x5000#16 (fun w => .seReg (fieldX w) (fieldY w)) ∧
  Encodes 0xF00F#16 0x9000#16 (fun w => .sneReg (fieldX w) (fieldY w)) ∧
  ∀ (x y : Reg) (s : State),
    (∃ t, exec (.seReg x y) s = .next t ∧ t.pc = (if s.reg x = s.reg y then s.pc + 2 else s.pc) ∧
      KeepsAllBut [.pc] s t) ∧
    (∃ t, exec (.sneReg x y) s = .next t ∧ t.pc = (if s.reg x ≠ s.reg y then s.pc + 2 else s.pc) ∧
      KeepsAllBut [.pc] s t)

/-! ### Registers and ALU (spec/41_alu.md) -/

/-- R122, R123, R124: VF is written only where X names it. -/
def Obligations.LoadAddImmediateAndCopy : Prop :=
  Encodes 0xF000#16 0x6000#16 (fun w => .ldImm (fieldX w) (fieldNN w)) ∧
  Encodes 0xF000#16 0x7000#16 (fun w => .addImm (fieldX w) (fieldNN w)) ∧
  Encodes 0xF00F#16 0x8000#16 (fun w => .ldReg (fieldX w) (fieldY w)) ∧
  ∀ (x y : Reg) (nn : Byte) (s : State),
    (∃ t, exec (.ldImm x nn) s = .next t ∧ t.reg x = nn ∧ KeepsRegsBut [x] s t ∧ KeepsAllBut [.v] s t) ∧
    (∃ t, exec (.addImm x nn) s = .next t ∧ (t.reg x).toNat = ((s.reg x).toNat + nn.toNat) % 256 ∧
      KeepsRegsBut [x] s t ∧ KeepsAllBut [.v] s t) ∧
    (∃ t, exec (.ldReg x y) s = .next t ∧ t.reg x = s.reg y ∧ KeepsRegsBut [x] s t ∧ KeepsAllBut [.v] s t)

/-- R125, R126, R127, bit by bit; VF is not written. -/
def Obligations.BitwiseOperationsBitByBit : Prop :=
  Encodes 0xF00F#16 0x8001#16 (fun w => .orReg (fieldX w) (fieldY w)) ∧
  Encodes 0xF00F#16 0x8002#16 (fun w => .andReg (fieldX w) (fieldY w)) ∧
  Encodes 0xF00F#16 0x8003#16 (fun w => .xorReg (fieldX w) (fieldY w)) ∧
  ∀ (x y : Reg) (s : State),
    (∃ t, exec (.orReg x y) s = .next t ∧
      (∀ k, k < 8 → (t.reg x).getLsbD k = ((s.reg x).getLsbD k || (s.reg y).getLsbD k)) ∧
      KeepsRegsBut [x] s t ∧ KeepsAllBut [.v] s t) ∧
    (∃ t, exec (.andReg x y) s = .next t ∧
      (∀ k, k < 8 → (t.reg x).getLsbD k = ((s.reg x).getLsbD k && (s.reg y).getLsbD k)) ∧
      KeepsRegsBut [x] s t ∧ KeepsAllBut [.v] s t) ∧
    (∃ t, exec (.xorReg x y) s = .next t ∧
      (∀ k, k < 8 → (t.reg x).getLsbD k = ((s.reg x).getLsbD k ^^ (s.reg y).getLsbD k)) ∧
      KeepsRegsBut [x] s t ∧ KeepsAllBut [.v] s t)

/-- R128. With X = 15 the flag replaces the sum (R121, the spec's decision D13). -/
def Obligations.AddSetsTheCarry : Prop :=
  Encodes 0xF00F#16 0x8004#16 (fun w => .addReg (fieldX w) (fieldY w)) ∧
  ∀ (x y : Reg) (s : State), ∃ t, exec (.addReg x y) s = .next t ∧
    (x ≠ 15 → (t.reg x).toNat = ((s.reg x).toNat + (s.reg y).toNat) % 256) ∧
    (t.reg 15).toNat = (if (s.reg x).toNat + (s.reg y).toNat > 255 then 1 else 0) ∧
    KeepsRegsBut [x, 15] s t ∧ KeepsAllBut [.v] s t

/-- R129 and R130. With X = 15 the flag replaces the difference (R121, the spec's decision D13). -/
def Obligations.SubtractionsSetNotBorrow : Prop :=
  Encodes 0xF00F#16 0x8005#16 (fun w => .sub (fieldX w) (fieldY w)) ∧
  Encodes 0xF00F#16 0x8007#16 (fun w => .subn (fieldX w) (fieldY w)) ∧
  ∀ (x y : Reg) (s : State),
    (∃ t, exec (.sub x y) s = .next t ∧
      (x ≠ 15 → (t.reg x).toNat = if (s.reg x).toNat ≥ (s.reg y).toNat then (s.reg x).toNat - (s.reg y).toNat
        else (s.reg x).toNat + 256 - (s.reg y).toNat) ∧
      (t.reg 15).toNat = (if (s.reg x).toNat ≥ (s.reg y).toNat then 1 else 0) ∧
      KeepsRegsBut [x, 15] s t ∧ KeepsAllBut [.v] s t) ∧
    (∃ t, exec (.subn x y) s = .next t ∧
      (x ≠ 15 → (t.reg x).toNat = if (s.reg y).toNat ≥ (s.reg x).toNat then (s.reg y).toNat - (s.reg x).toNat
        else (s.reg y).toNat + 256 - (s.reg x).toNat) ∧
      (t.reg 15).toNat = (if (s.reg y).toNat ≥ (s.reg x).toNat then 1 else 0) ∧
      KeepsRegsBut [x, 15] s t ∧ KeepsAllBut [.v] s t)

/-- R131 and R132 under both settings of `legacy_shift`; in neither is V[Y] changed unless it is X or VF. With X = 15
the flag replaces the result (R121, the spec's decision D13). -/
def Obligations.ShiftsMoveOneBitIntoVf : Prop :=
  Encodes 0xF00F#16 0x8006#16 (fun w => .shr (fieldX w) (fieldY w)) ∧
  Encodes 0xF00F#16 0x800E#16 (fun w => .shl (fieldX w) (fieldY w)) ∧
  ∀ (x y : Reg) (s : State) (a : Nat), a = (if s.cfg.legacyShift then (s.reg y).toNat else (s.reg x).toNat) →
    (∃ t, exec (.shr x y) s = .next t ∧ (x ≠ 15 → (t.reg x).toNat = a / 2) ∧ (t.reg 15).toNat = a % 2 ∧
      KeepsRegsBut [x, 15] s t ∧ KeepsAllBut [.v] s t) ∧
    (∃ t, exec (.shl x y) s = .next t ∧ (x ≠ 15 → (t.reg x).toNat = a * 2 % 256) ∧ (t.reg 15).toNat = a / 128 ∧
      KeepsRegsBut [x, 15] s t ∧ KeepsAllBut [.v] s t)

/-- R133: whatever byte the host's source gives (log entry 1), one byte is consumed and the result has no bit outside
NN. That the byte is an input of the step is the spec's decision D21. -/
def Obligations.RandomByteIsMasked : Prop :=
  Encodes 0xF000#16 0xC000#16 (fun w => .rnd (fieldX w) (fieldNN w)) ∧
  ∀ (x : Reg) (nn : Byte) (s : State), ∃ t, exec (.rnd x nn) s = .next t ∧
    t.reg x = Config.randomByte s.randDraws &&& nn ∧ (∀ k, nn.getLsbD k = false → (t.reg x).getLsbD k = false) ∧
    t.randDraws = s.randDraws + 1 ∧ KeepsRegsBut [x] s t ∧ KeepsAllBut [.v, .randDraws] s t

/-- R135, for all twelve instructions of the group: PC and everything but the registers (and the count of random
bytes) is left alone, and none faults. R135 is marked by the spec as its own inference, from R122 to R133. -/
def Obligations.AluGroupTouchesRegistersOnly : Prop :=
  ∀ (i : Instr) (s : State), i.isAlu = true → ∃ t, exec i s = .next t ∧ KeepsAllBut [.v, .randDraws] s t

/-! ### Index register and memory (spec/42_index_memory.md) -/

/-- R150 and R153. -/
def Obligations.IndexLoads : Prop :=
  Encodes 0xF000#16 0xA000#16 (fun w => .ldI (fieldNNN w)) ∧
  Encodes 0xF0FF#16 0xF029#16 (fun w => .ldF (fieldX w)) ∧
  ∀ (nnn : Addr12) (x : Reg) (s : State),
    (∃ t, exec (.ldI nnn) s = .next t ∧ t.index.toNat = nnn.toNat ∧ KeepsAllBut [.index] s t) ∧
    (∃ t, exec (.ldF x) s = .next t ∧ t.index.toNat = 0x050 + 5 * ((s.reg x).toNat % 16) ∧ KeepsAllBut [.index] s t)

/-- R152. What VF does below 0x1000 is the spec's decision D8 and its parameter, the fault above 0xFFFF its decision
D9 (pc0 in the report D4). That the fault changes nothing else is its decision D5. -/
def Obligations.AddToIndexStoresOrFaults : Prop :=
  Encodes 0xF0FF#16 0xF01E#16 (fun w => .addI (fieldX w)) ∧
  ∀ (x : Reg) (s : State) (sum : Nat), sum = s.index.toNat + (s.reg x).toNat →
    (sum ≤ 0xFFFF → ∃ t, exec (.addI x) s = .next t ∧ t.index.toNat = sum ∧
      t.reg 15 = (if s.cfg.indexOverflowFlag ∧ 0x1000 ≤ sum then 1
        else if s.cfg.indexOverflowFlag ∧ s.params.fx1eClearVf then 0 else s.reg 15) ∧
      KeepsRegsBut [15] s t ∧ KeepsAllBut [.index, .v] s t) ∧
    (0xFFFF < sum → exec (.addI x) s = .next { s with run := .halted .outOfBoundsAccess (s.pc - 2) })

/-- R31: FX1E is the only instruction that can leave I at or above 0x1000. That FX55 and FX65 cannot, since the legacy
advance faults in place of storing 0x1000, is the spec's decision D10 (R157; log entry 18). -/
def Obligations.OnlyAddToIndexPassesTheEnd : Prop :=
  ∀ (i : Instr) (s t : State), s.index.toNat < 0x1000 → exec i s = .next t → 0x1000 ≤ t.index.toNat →
    ∃ x, i = .addI x

/-- R154: the three digits at I, I + 1, I + 2, no other byte; from I = 0xFFE up the machine halts and nothing is
stored. That not even the bytes before the one that faults are stored, and that PC stays as the fetch advanced it, is the
spec's decision D5 (R151, R232; log entry 18). -/
def Obligations.DecimalDigitsAreStored : Prop :=
  Encodes 0xF0FF#16 0xF033#16 (fun w => .ldB (fieldX w)) ∧
  ∀ (x : Reg) (s : State),
    (s.index.toNat + 2 < 4096 → ∃ t, exec (.ldB x) s = .next t ∧
      (t.byteAt s.index.toNat).toNat = (s.reg x).toNat / 100 ∧
      (t.byteAt (s.index.toNat + 1)).toNat = (s.reg x).toNat / 10 % 10 ∧
      (t.byteAt (s.index.toNat + 2)).toNat = (s.reg x).toNat % 10 ∧
      (∀ a, a < s.index.toNat ∨ s.index.toNat + 2 < a → t.byteAt a = s.byteAt a) ∧ KeepsAllBut [.mem] s t) ∧
    (4096 ≤ s.index.toNat + 2 → ∃ t p, exec (.ldB x) s = .next t ∧ t.run = .halted .outOfBoundsAccess p ∧
      KeepsAllBut [.run] s t)

/-- R155 under both settings of the legacy advance. The fault of an advance to 0x1000 is the spec's decision D10
(R157), the report's pc0 its decision D4. That the fault changes nothing else is its decision D5 (log entry 18). -/
def Obligations.StoreRegistersAtIndex : Prop :=
  Encodes 0xF0FF#16 0xF055#16 (fun w => .stRegs (fieldX w)) ∧
  ∀ (x : Reg) (s : State) (last : Nat),
    last = s.index.toNat + x.val + (if s.cfg.legacyStoreLoadAdvancesIndex then 1 else 0) →
    (last < 4096 → ∃ t, exec (.stRegs x) s = .next t ∧
      (∀ k : Reg, k ≤ x → t.byteAt (s.index.toNat + k.val) = s.reg k) ∧
      (∀ a, a < s.index.toNat ∨ s.index.toNat + x.val < a → t.byteAt a = s.byteAt a) ∧
      t.index.toNat = s.index.toNat + (if s.cfg.legacyStoreLoadAdvancesIndex then x.val + 1 else 0) ∧
      KeepsAllBut [.mem, .index] s t) ∧
    (4096 ≤ last → exec (.stRegs x) s = .next { s with run := .halted .outOfBoundsAccess (s.pc - 2) })

/-- R156 under both settings of the legacy advance; the same decisions as above. That the fault changes nothing else
is its decision D5 (log entry 18). -/
def Obligations.LoadRegistersFromIndex : Prop :=
  Encodes 0xF0FF#16 0xF065#16 (fun w => .ldRegs (fieldX w)) ∧
  ∀ (x : Reg) (s : State) (last : Nat),
    last = s.index.toNat + x.val + (if s.cfg.legacyStoreLoadAdvancesIndex then 1 else 0) →
    (last < 4096 → ∃ t, exec (.ldRegs x) s = .next t ∧
      (∀ k : Reg, k ≤ x → t.reg k = s.byteAt (s.index.toNat + k.val)) ∧
      (∀ k : Reg, x < k → t.reg k = s.reg k) ∧
      t.index.toNat = s.index.toNat + (if s.cfg.legacyStoreLoadAdvancesIndex then x.val + 1 else 0) ∧
      KeepsAllBut [.v, .index] s t) ∧
    (4096 ≤ last → exec (.ldRegs x) s = .next { s with run := .halted .outOfBoundsAccess (s.pc - 2) })

/-- What FX55 stores FX65 brings back, whatever happened to the registers in between (without the legacy advance). -/
def Obligations.LoadBringsBackWhatStoreSaved : Prop :=
  ∀ (x : Reg) (s : State), s.cfg.legacyStoreLoadAdvancesIndex = false → s.index.toNat + x.val < 4096 →
    ∃ t, exec (.stRegs x) s = .next t ∧ ∀ v' : Vector Byte 16, ∃ u,
      exec (.ldRegs x) { t with v := v' } = .next u ∧ (∀ k : Reg, k ≤ x → u.reg k = s.reg k) ∧ u.index = s.index

/-- R62, for both storing instructions, every X and both settings of the legacy advance: whichever byte of the next
instruction the store covers, its first or its second, the next fetch reads what was stored there. That a fetch sees an
earlier store at once is the spec's decision D29; where the transfers fault instead is its D10 and D5. -/
def Obligations.NextFetchSeesTheStore : Prop :=
  ∀ (x : Reg) (s : State),
    (s.index.toNat + x.val + (if s.cfg.legacyStoreLoadAdvancesIndex then 1 else 0) < 4096 →
      ∃ t, exec (.stRegs x) s = .next t ∧ t.pc = s.pc ∧ ∀ k : Reg, k ≤ x →
        (s.pc.toNat = s.index.toNat + k.val → t.fetchBytes[0]? = some (s.reg k)) ∧
        (s.pc.toNat + 1 = s.index.toNat + k.val → t.fetchBytes[1]? = some (s.reg k))) ∧
    (s.index.toNat + 2 < 4096 →
      ∃ t, exec (.ldB x) s = .next t ∧ t.pc = s.pc ∧
        ∀ k digit, (k, digit) ∈ [(0, (s.reg x).toNat / 100), (1, (s.reg x).toNat / 10 % 10), (2, (s.reg x).toNat % 10)] →
          (s.pc.toNat = s.index.toNat + k → t.fetchBytes[0]?.map BitVec.toNat = some digit) ∧
          (s.pc.toNat + 1 = s.index.toNat + k → t.fetchBytes[1]?.map BitVec.toNat = some digit))

/-! ### Display (spec/43_display.md) -/

/-- R170. -/
def Obligations.ClearTurnsEveryPixelOff : Prop :=
  Encodes 0xFFFF#16 0x00E0#16 (fun _ => .cls) ∧
  ∀ s : State, ∃ t, exec .cls s = .next t ∧ (∀ px py, t.pixel px py = false) ∧ KeepsAllBut [.fb] s t

/-- R171, R172, R174, where the sprite lies in memory: each pixel on the screen is toggled exactly where the clipped
sprite has a 1, VF is 1 exactly when such a pixel was on, one render signal is emitted. That the check covers all N
rows and that the coordinates are read before VF is written are the spec's decisions D11 and D12. The signal's shape
and count is its decision D30. -/
def Obligations.DrawTogglesTheClippedSprite : Prop :=
  Encodes 0xF000#16 0xD000#16 (fun w => .drw (fieldX w) (fieldY w) (fieldN w)) ∧
  ∀ (x y : Reg) (n : Nibble) (s : State), n.toNat = 0 ∨ s.index.toNat + n.toNat - 1 < 4096 →
    ∃ t, exec (.drw x y n) s = .next t ∧
      (∀ px py, OnScreen px py → t.pixel px py = (s.pixel px py ^^ s.spriteBit x y n px py)) ∧
      (s.Collides x y n → t.reg 15 = 1) ∧ (¬s.Collides x y n → t.reg 15 = 0) ∧
      t.signals = .render :: s.signals ∧ KeepsRegsBut [15] s t ∧ KeepsAllBut [.fb, .v, .signals] s t

/-- A sprite of at least one row that does not lie in memory faults, also where the clip would skip its last rows: the
spec's decision D11 (precision D5, pc0 D4). -/
def Obligations.DrawOutsideMemoryHalts : Prop :=
  ∀ (x y : Reg) (n : Nibble) (s : State), 1 ≤ n.toNat → 4096 ≤ s.index.toNat + n.toNat - 1 →
    exec (.drw x y n) s = .next { s with run := .halted .outOfBoundsAccess (s.pc - 2) }

/-- R173: the same sprite drawn twice at the same place restores the picture, and the second draw reports a collision
exactly where the sprite covers a pixel that was off before the first. "The same place" is a premise, since a
coordinate in VF is changed by the first draw. R173's own last sentence says that the second draw of a visible sprite
always ends with VF = 1; by R171's algorithm that needs such a pixel (log entry 23). The premise that the sprite lies
in memory is R171 with the spec's decision D11. -/
def Obligations.DrawingTwiceRestoresThePicture : Prop :=
  ∀ (x y : Reg) (n : Nibble) (s t : State), n.toNat = 0 ∨ s.index.toNat + n.toNat - 1 < 4096 →
    exec (.drw x y n) s = .next t →
    (t.reg x).toNat % 64 = (s.reg x).toNat % 64 → (t.reg y).toNat % 32 = (s.reg y).toNat % 32 →
    ∃ u, exec (.drw x y n) t = .next u ∧ u.fb = s.fb ∧
      ((∃ px py, OnScreen px py ∧ s.spriteBit x y n px py = true ∧ s.pixel px py = false) → u.reg 15 = 1) ∧
      ((∀ px py, OnScreen px py → s.spriteBit x y n px py = true → s.pixel px py = true) → u.reg 15 = 0)

/-! ### Keys and timers (spec/44_keys_timers.md) -/

/-- R180, R181, R186 under both key policies. The policies are the spec's decision D14. So are the snapshot (D27) and
what the fault leaves and reports (D5, D4). -/
def Obligations.KeySkipsTestTheSnapshot : Prop :=
  Encodes 0xF0FF#16 0xE09E#16 (fun w => .skp (fieldX w)) ∧ Encodes 0xF0FF#16 0xE0A1#16 (fun w => .sknp (fieldX w)) ∧
  ∀ (x : Reg) (s : State),
    (s.params.keyIndexPolicy = .mask4 ∨ (s.reg x).toNat ≤ 15 →
      (∃ t, exec (.skp x) s = .next t ∧
        t.pc = (if s.key.getLsbD ((s.reg x).toNat % 16) = true then s.pc + 2 else s.pc) ∧ KeepsAllBut [.pc] s t) ∧
      (∃ t, exec (.sknp x) s = .next t ∧
        t.pc = (if s.key.getLsbD ((s.reg x).toNat % 16) = false then s.pc + 2 else s.pc) ∧ KeepsAllBut [.pc] s t)) ∧
    (s.params.keyIndexPolicy = .fault ∧ 15 < (s.reg x).toNat →
      exec (.skp x) s = .next { s with run := .halted .badKeyIndex (s.pc - 2) } ∧
      exec (.sknp x) s = .next { s with run := .halted .badKeyIndex (s.pc - 2) })

/-- R182: with no key pressed PC goes back by 2 and nothing else changes; with a key pressed V[X] takes a pressed key,
under `lowest` the lowest one, and PC stays. The choice is free (the spec's decision D15, log entry 1). The snapshot
is the spec's decision D27. -/
def Obligations.WaitForKeyRewindsOrTakesAKey : Prop :=
  Encodes 0xF0FF#16 0xF00A#16 (fun w => .ldVxK (fieldX w)) ∧
  ∀ (x : Reg) (s : State),
    (s.key = 0#16 → ∃ t, exec (.ldVxK x) s = .next t ∧ t.pc = s.pc - 2 ∧ KeepsAllBut [.pc] s t) ∧
    (s.key ≠ 0#16 → ∃ t, exec (.ldVxK x) s = .next t ∧ (t.reg x).toNat < 16 ∧
      s.key.getLsbD (t.reg x).toNat = true ∧
      (s.params.fx0aKeyChoice = .lowest → ∀ j, j < (t.reg x).toNat → s.key.getLsbD j = false) ∧
      KeepsRegsBut [x] s t ∧ KeepsAllBut [.v, .keyDraws] s t)

/-- R183, R184, R185 and the sound output of R219. Which opcode does which is the spec's decision D22 (log entry 16). -/
def Obligations.TimerTransfers : Prop :=
  Encodes 0xF0FF#16 0xF007#16 (fun w => .ldVxDt (fieldX w)) ∧
  Encodes 0xF0FF#16 0xF015#16 (fun w => .ldDtVx (fieldX w)) ∧
  Encodes 0xF0FF#16 0xF018#16 (fun w => .ldStVx (fieldX w)) ∧
  ∀ (x : Reg) (s : State),
    (∃ t, exec (.ldVxDt x) s = .next t ∧ t.reg x = s.dt ∧ KeepsRegsBut [x] s t ∧ KeepsAllBut [.v] s t) ∧
    (∃ t, exec (.ldDtVx x) s = .next t ∧ t.dt = s.reg x ∧ KeepsAllBut [.dt] s t) ∧
    (∃ t, exec (.ldStVx x) s = .next t ∧ t.st = s.reg x ∧ (t.soundOn = true ↔ s.reg x ≠ 0) ∧ KeepsAllBut [.st] s t)

/-! ### The execute phase as a whole -/

/-- R39's write columns, for all 34 instructions: an instruction changes only the parts and the registers listed for
it. R39 is marked by the spec as its own inference; that a fault writes RUN alone is its decision D5. -/
def Obligations.InstructionsWriteOnlyWhatTheMatrixLists : Prop :=
  ∀ (i : Instr) (s t : State), exec i s = .next t → KeepsAllBut i.writes s t ∧ KeepsRegsBut i.writesRegs s t

/-- R233 and R232: every instruction completes where the table lists no fault for it, and where it lists one, `RUN` is
the halt report and nothing else is written. The precision of faults and pc0 = PC − 2 are the spec's decisions D4 and
D5; some of the conditions are its D9, D10, D11, D14. -/
def Obligations.ExecuteFaultsExactlyAsListed : Prop :=
  ∀ (i : Instr) (s : State),
    match i.executeFault s with
    | none => ∃ t, exec i s = .next t ∧ t.run = s.run
    | some k => exec i s = .next { s with run := .halted k (s.pc - 2) }

/-! ### Steps (spec/45_scheduler_and_host.md) -/

/-- R201: inside a batch, with the host silent, a step runs the instruction the two bytes at PC decode to, high byte
first, with REM one less and PC advanced by 2, and a step that brings REM to 0 without a fault emits one render
signal. REM is the spec's decision D19, the render signal at the batch's end its D20 and D30. -/
def Obligations.StepRunsTheDecodedInstruction : Prop :=
  ∀ (s : State) (i : Instr), s.host = [] → s.run = .running → 0 < s.rem → s.pc.toNat + 1 < 4096 →
    decodeWord (s.byteAt s.pc.toNat ++ s.byteAt (s.pc.toNat + 1)) = .ok i →
    step s =
      match exec i { s with rem := s.rem - 1, pc := s.pc + 2 } with
      | .next t => .next (if t.run = .running ∧ t.rem = 0 then { t with signals := .render :: t.signals } else t)
      | .fault f => .fault f
      | .refused r => .refused r

/-- R201, R233, first row: a fetch whose second byte lies at or above 4096 halts with PC where it was (pc0 in the
report: the spec's decision D4). That PC = 0xFFF faults too is marked as its own inference, that the fault changes
nothing else its decision D5. -/
def Obligations.FetchPastTheEndHalts : Prop :=
  ∀ s : State, s.host = [] → s.run = .running → 0 < s.rem → 0xFFF ≤ s.pc.toNat →
    step s = .next { s with rem := s.rem - 1, run := .halted .outOfBoundsAccess s.pc }

/-- R85: an undefined word halts with `IllegalInstruction` after the fetch has advanced PC, and changes nothing else: the
spec's decision D1 (pc0 D4, precision D5). -/
def Obligations.UndefinedWordHalts : Prop :=
  ∀ (s : State) (e : DecodeError), s.host = [] → s.run = .running → 0 < s.rem → s.pc.toNat + 1 < 4096 →
    decodeWord (s.byteAt s.pc.toNat ++ s.byteAt (s.pc.toNat + 1)) = .error e →
    step s = .next { s with rem := s.rem - 1, pc := s.pc + 2, run := .halted .illegalInstruction s.pc }

/-- R206: with the batch done and the host silent the next event is the frame tick. REM is the spec's decision D19,
the snapshot D27, the signal of an empty batch D20 and D30. -/
def Obligations.FrameTickCountsDownAndSamplesKeys : Prop :=
  ∀ s : State, s.host = [] → s.run = .running → s.rem = 0 →
    ∃ t, step s = .next t ∧ t.dt.toNat = s.dt.toNat - 1 ∧ t.st.toNat = s.st.toNat - 1 ∧ t.key = s.keyIn ∧
      t.rem = s.cfg.instructionsPerSecond / 60 ∧
      t.signals = (if s.cfg.instructionsPerSecond / 60 = 0 then .render :: s.signals else s.signals) ∧
      KeepsAllBut [.dt, .st, .key, .rem, .signals] s t

/-- R205, R36, R33: inside a batch, `n` steps that do not halt the machine take exactly `n` from REM, and no tick
falls among them: the key snapshot and the input level stay. REM is the spec's decision D19. The snapshot is its
decision D27. -/
def Obligations.BatchRunsExactlyItsSteps : Prop :=
  ∀ (n : Nat) (s t : State), s.host = [] → s.run = .running → n ≤ s.rem → Sys2Proof.core.run n s = .next t →
    t.run = .running → t.rem = s.rem - n ∧ t.key = s.key ∧ t.keyIn = s.keyIn ∧ t.cfg = s.cfg

/-- R204, R206: below 60 instructions per second no instruction runs, and `n` ticks take `n` from each timer, floor 0,
with one render signal each. The empty batch is the spec's decision D19, its signal D20 and D30. -/
def Obligations.EmptyBatchesTickTheTimersDown : Prop :=
  ∀ (n : Nat) (s : State), s.host = [] → s.run = .running → s.rem = 0 → s.cfg.instructionsPerSecond < 60 →
    ∃ t, Sys2Proof.core.run n s = .next t ∧ t.dt.toNat = s.dt.toNat - n ∧ t.st.toNat = s.st.toNat - n ∧
      t.signals = List.replicate n .render ++ s.signals ∧ KeepsAllBut [.dt, .st, .key, .signals] s t

/-- R182 with R206: while the host presses no key, a machine at an FX0A is still there after any number of steps,
ticks among them, its registers as they were. REM is the spec's decision D19, the snapshot D27. -/
def Obligations.WaitForKeyNeverAdvancesWithoutAKey : Prop :=
  ∀ (s : State) (x : Reg), s.host = [] → s.run = .running → s.key = 0#16 → s.keyIn = 0#16 → s.pc.toNat + 1 < 4096 →
    decodeWord (s.byteAt s.pc.toNat ++ s.byteAt (s.pc.toNat + 1)) = .ok (.ldVxK x) →
    ∀ n, SafeRun n s ∧ ∀ t, Sys2Proof.core.run n s = .next t →
      t.pc = s.pc ∧ KeepsAllBut [.dt, .st, .rem, .signals] s t

/-! ### The host -/

/-- R208, R210 and R200's guards, in every scheduler state: a `Start` happens in `Idle` alone and a `Stop` between frames
alone; elsewhere the machine does what it would do without the request. `Start` and `Stop` are the spec's decision D18;
that a request whose guard fails stays pending is this model's choice (log entry 5), as is the step that changes nothing
where no event is possible (log entry 7). -/
def Obligations.StartAndStopObeyTheirGuards : Prop :=
  ∀ (s : State) (rest : List HostEvent) (k : ErrorKind) (p : Word),
    (s.host = .start :: rest →
      (s.run = .idle → step s = .next { s with run := .running, host := rest }) ∧
      (s.run = .running → 0 < s.rem → step s = instrStep s) ∧
      (s.run = .running → s.rem = 0 → step s = .next (frameTick s)) ∧
      (s.run = .halted k p → step s = .next s)) ∧
    (s.host = .stop :: rest →
      (s.run = .idle → step s = .next s) ∧
      (s.run = .running → 0 < s.rem → step s = instrStep s) ∧
      (s.run = .running → s.rem = 0 → step s = .next { s with run := .idle, host := rest }) ∧
      (s.run = .halted k p → step s = .next s))

/-- R215: the setter changes one bit of the input level and nothing the engine looks at, in every scheduler state.
That the input level and the snapshot are two things is the spec's decision D27. -/
def Obligations.KeySetterChangesTheInputLevelOnly : Prop :=
  ∀ (s : State) (k : Fin 16) (pressed : Bool) (rest : List HostEvent), s.host = .key k pressed :: rest →
    ∃ t, step s = .next t ∧ (∀ j, j < 16 → t.keyIn.getLsbD j = if j = k.val then pressed else s.keyIn.getLsbD j) ∧
      t.host = rest ∧ KeepsAllBut [.keyIn, .host] s t

/-- R214: a load of more than 3584 bytes changes no state and is reported. When a load can happen is the spec's
decision D31 (log entry 6). -/
def Obligations.OversizeProgramIsRejected : Prop :=
  ∀ (s : State) (rom : List Byte) (cfg : Cfg) (rest : List HostEvent), s.host = .reset rom cfg :: rest →
    (HostEvent.reset rom cfg).enabled s = true → 3584 < rom.length →
    ∃ t, step s = .next t ∧ t.signals = .loadError :: s.signals ∧ t.host = rest ∧ KeepsAllBut [.signals, .host] s t

/-- R260: a load that fits creates the engine's state anew, and its bytes are the program, the font and `MEM_INIT`.
The zeros are the spec's decision D16, `Idle` its D18; what is not the engine's stays (log entry 17). When a load can
happen is its decision D31 (log entry 6), REM D19. -/
def Obligations.ProgramLoadCreatesTheStateAnew : Prop :=
  ∀ (s : State) (rom : List Byte) (cfg : Cfg) (rest : List HostEvent), s.host = .reset rom cfg :: rest →
    cfg.legal = true → s.run ≠ .running ∨ s.rem = 0 → rom.length ≤ 3584 →
    ∃ t, step s = .next t ∧ (∀ r, t.reg r = 0) ∧ t.index = 0 ∧ t.pc = 0x200 ∧ t.stack = [] ∧ t.dt = 0 ∧ t.st = 0 ∧
      (∀ px py, t.pixel px py = false) ∧ t.key = 0 ∧ t.run = .idle ∧ t.cfg = cfg ∧ t.rem = 0 ∧ t.host = rest ∧
      (∀ k (h : k < rom.length), t.byteAt (0x200 + k) = rom[k]) ∧
      (∀ k (h : k < 80), t.byteAt (0x050 + k) = s.params.font[k]) ∧
      (∀ b a, s.params.memInit = .fill b → a < 0x050 ∨ (0x0A0 ≤ a ∧ a < 0x200) ∨ 0x200 + rom.length ≤ a →
        t.byteAt a = b) ∧
      t.params = s.params ∧ t.keyIn = s.keyIn ∧ t.signals = s.signals ∧ t.randDraws = s.randDraws ∧
      t.keyDraws = s.keyDraws

/-- R262: after a load and `Start` the first event is a frame tick, and the first instruction fetched is the first two
bytes of the ROM. `Start` and `Idle` are the spec's decision D18, the zeros its D16, REM D19. The tick samples the key
inputs (R206, R33; D27); that they are those from before the load, which leaves them, is this model's choice (log
entry 17). -/
def Obligations.BootFetchesTheProgramsFirstBytes : Prop :=
  ∀ (s : State) (a b : Byte) (rom : List Byte) (cfg : Cfg), s.run = .idle →
    s.host = [.reset (a :: b :: rom) cfg, .start] → cfg.legal = true → rom.length + 2 ≤ 3584 →
    ∃ t, Sys2Proof.core.run 3 s = .next t ∧ t.run = .running ∧ t.rem = cfg.instructionsPerSecond / 60 ∧
      t.key = s.keyIn ∧ t.dt = 0 ∧ t.st = 0 ∧ t.pc = 0x200 ∧ t.fetchBytes = [a, b] ∧ t.host = []

/-- R211, R209: a halted machine whose host is silent has no next event; while the host acts, nothing of the engine's
changes and only a `Reset` leaves `Halted`. That nothing runs in `Halted` is the spec's decision D20, that a `Reset`
may come there D31; the fault and the step that changes nothing are this model's choice (log entry 7). -/
def Obligations.OnlyResetLeavesHalted : Prop :=
  ∀ (s : State) (k : ErrorKind) (p : Word), s.run = .halted k p →
    (s.host = [] → step s = .fault (.halted k p)) ∧
    (∀ t, step s = .next t →
      (t.run = .halted k p ∧ KeepsAllBut [.host, .keyIn, .signals] s t) ∨
      (t.run = .idle ∧ ∃ rom cfg rest, s.host = .reset rom cfg :: rest ∧ rom.length ≤ 3584))

/-- R211, R208: `Idle` is left by `Start` alone, and never for `Halted`. That `Start` leaves it is the spec's decision D18
(log entry 6). -/
def Obligations.OnlyStartLeavesIdle : Prop :=
  ∀ s t : State, s.run = .idle → step s = .next t →
    t.run = .idle ∨ (t.run = .running ∧ ∃ rest, s.host = .start :: rest)

/-- R35, R222: the configuration changes only where a program is loaded. That the parameters of R7 never change, at a
load neither, is this model's choice: they are constant for a machine (log entry 3) and survive a load (log entry 17),
while R7 says only that a model takes each as a configuration field. -/
def Obligations.ConfigurationIsConstantBetweenLoads : Prop :=
  ∀ s t : State, step s = .next t →
    (t.cfg = s.cfg ∨ ∃ rom rest, s.host = .reset rom t.cfg :: rest ∧ t.cfg.legal = true) ∧ t.params = s.params

/-! ### Reset and the invariant -/

/-- R261, R38: the power-on state, with R6's and R7's defaults and R23's font bytes written out, each glyph at its address.
That there is a power-on state is the spec's decision D24, the zeros D16, `Idle` D18, REM D19, the font bytes D17
(PRESUMED, log entry 3), the defaults of R7 D8, D14, D15, D16. -/
def Obligations.PowerOnStateIsAsSpecified : Prop :=
  (∀ r, State.reset.reg r = 0) ∧ State.reset.index = 0 ∧ State.reset.pc = 0x200 ∧ State.reset.stack = [] ∧
  State.reset.dt = 0 ∧ State.reset.st = 0 ∧ (∀ px py, State.reset.pixel px py = false) ∧ State.reset.key = 0 ∧
  State.reset.run = .idle ∧ State.reset.rem = 0 ∧
  State.reset.cfg.legacyShift = false ∧ State.reset.cfg.legacyJumpWithVx = false ∧
  State.reset.cfg.indexOverflowFlag = true ∧ State.reset.cfg.legacyStoreLoadAdvancesIndex = false ∧
  State.reset.cfg.instructionsPerSecond = 700 ∧
  State.reset.params.memInit = .fill 0x00 ∧ State.reset.params.fx1eClearVf = false ∧
  State.reset.params.keyIndexPolicy = .mask4 ∧ State.reset.params.fx0aKeyChoice = .any ∧
  (∀ glyph ∈ [(0x050, [0xF0#8, 0x90, 0x90, 0x90, 0xF0]), (0x055, [0x20, 0x60, 0x20, 0x20, 0x70]),
      (0x05A, [0xF0, 0x10, 0xF0, 0x80, 0xF0]), (0x05F, [0xF0, 0x10, 0xF0, 0x10, 0xF0]),
      (0x064, [0x90, 0x90, 0xF0, 0x10, 0x10]), (0x069, [0xF0, 0x80, 0xF0, 0x10, 0xF0]),
      (0x06E, [0xF0, 0x80, 0xF0, 0x90, 0xF0]), (0x073, [0xF0, 0x10, 0x20, 0x40, 0x40])] ++
      [(0x078, [0xF0, 0x90, 0xF0, 0x90, 0xF0]), (0x07D, [0xF0, 0x90, 0xF0, 0x10, 0xF0]),
      (0x082, [0xF0, 0x90, 0xF0, 0x90, 0x90]), (0x087, [0xE0, 0x90, 0xE0, 0x90, 0xE0]),
      (0x08C, [0xF0, 0x80, 0x80, 0x80, 0xF0]), (0x091, [0xE0, 0x90, 0x90, 0x90, 0xE0]),
      (0x096, [0xF0, 0x80, 0xF0, 0x80, 0xF0]), (0x09B, [0xF0, 0x80, 0xF0, 0x80, 0x80])],
    State.reset.bytesAt glyph.1 5 = glyph.2) ∧
  (∀ a, a < 0x050 ∨ 0x0A0 ≤ a → State.reset.byteAt a = 0)

/-- The invariant holds at power-on. Its bounds rest on the spec's decisions D7 (PC), D19 (REM), D26 (the stack). -/
def Obligations.InvariantHoldsAtReset : Prop := Inv State.reset

/-- Every step keeps the invariant: memory canonical and inside 0x000 to 0xFFF, at most 16 return addresses each at
most 0x1000, PC at most 0x10FE, REM at most IPF, a legal configuration, and no halt by `RomTooLarge`. Its bounds rest
on the spec's decisions D7 (PC), D19 (REM), D26 (the stack); the canonical form of memory is this model's. -/
def Obligations.EveryStepKeepsTheInvariant : Prop :=
  ∀ s t : State, Inv s → step s = .next t → Inv t
end

