-- ==== Sys2Proof/Laws/Decode.lean ====
section
/-! SUPPORT. The fields of an encoded word, the word put together from its fields, and what a mask says of them
(spec/30_encoding.md R71, R72, R75). -/

namespace Sys2Proof

/-! ### Fields of the three forms -/

variable (c : BitVec 4) (nnn : Addr12) (x y : Reg) (nn : Byte) (n : Nibble)

@[simp] theorem fieldC_formNNN : fieldC (formNNN c nnn) = c := by
  refine BitVec.eq_of_getLsbD_eq fun i hi => ?_
  simp only [fieldC, formNNN, BitVec.getLsbD_extractLsb', BitVec.getLsbD_append]
  grind

@[simp] theorem fieldNNN_formNNN : fieldNNN (formNNN c nnn) = nnn := by
  refine BitVec.eq_of_getLsbD_eq fun i hi => ?_
  simp only [fieldNNN, formNNN, BitVec.getLsbD_extractLsb', BitVec.getLsbD_append]
  grind

@[simp] theorem fieldC_formXNN : fieldC (formXNN c x nn) = c := by
  refine BitVec.eq_of_getLsbD_eq fun i hi => ?_
  simp only [fieldC, formXNN, BitVec.getLsbD_extractLsb', BitVec.getLsbD_append]
  grind

@[simp] theorem fieldX_formXNN : fieldX (formXNN c x nn) = x := by
  have h : (formXNN c x nn).extractLsb' 8 4 = BitVec.ofFin x := by
    refine BitVec.eq_of_getLsbD_eq fun i hi => ?_
    simp only [formXNN, BitVec.getLsbD_extractLsb', BitVec.getLsbD_append]
    grind
  rw [fieldX, h]

@[simp] theorem fieldNN_formXNN : fieldNN (formXNN c x nn) = nn := by
  refine BitVec.eq_of_getLsbD_eq fun i hi => ?_
  simp only [fieldNN, formXNN, BitVec.getLsbD_extractLsb', BitVec.getLsbD_append]
  grind

@[simp] theorem fieldC_formXYN : fieldC (formXYN c x y n) = c := by
  refine BitVec.eq_of_getLsbD_eq fun i hi => ?_
  simp only [fieldC, formXYN, BitVec.getLsbD_extractLsb', BitVec.getLsbD_append]
  grind

@[simp] theorem fieldX_formXYN : fieldX (formXYN c x y n) = x := by
  have h : (formXYN c x y n).extractLsb' 8 4 = BitVec.ofFin x := by
    refine BitVec.eq_of_getLsbD_eq fun i hi => ?_
    simp only [formXYN, BitVec.getLsbD_extractLsb', BitVec.getLsbD_append]
    grind
  rw [fieldX, h]

@[simp] theorem fieldY_formXYN : fieldY (formXYN c x y n) = y := by
  have h : (formXYN c x y n).extractLsb' 4 4 = BitVec.ofFin y := by
    refine BitVec.eq_of_getLsbD_eq fun i hi => ?_
    simp only [formXYN, BitVec.getLsbD_extractLsb', BitVec.getLsbD_append]
    grind
  rw [fieldY, h]

@[simp] theorem fieldN_formXYN : fieldN (formXYN c x y n) = n := by
  refine BitVec.eq_of_getLsbD_eq fun i hi => ?_
  simp only [fieldN, formXYN, BitVec.getLsbD_extractLsb', BitVec.getLsbD_append]
  grind

/-- Bits 11 to 8 are X and the top of NNN at once (R72). -/
theorem topNibble_fieldNNN (w : Word) : topNibble (fieldNNN w) = fieldX w := by
  have h : (fieldNNN w).extractLsb' 8 4 = w.extractLsb' 8 4 := by
    refine BitVec.eq_of_getLsbD_eq fun i hi => ?_
    simp only [fieldNNN, BitVec.getLsbD_extractLsb']
    grind
  rw [topNibble, h, fieldX]

@[simp] theorem fieldX_formNNN : fieldX (formNNN c nnn) = topNibble nnn := by
  rw [← topNibble_fieldNNN, fieldNNN_formNNN]

/-! ### A word is its fields -/

theorem formNNN_fields (w : Word) : formNNN (fieldC w) (fieldNNN w) = w := by
  refine BitVec.eq_of_getLsbD_eq fun i hi => ?_
  simp only [formNNN, fieldNNN, fieldC, BitVec.getLsbD_append, BitVec.getLsbD_extractLsb']
  grind

theorem formXNN_fields (w : Word) : formXNN (fieldC w) (fieldX w) (fieldNN w) = w := by
  refine BitVec.eq_of_getLsbD_eq fun i hi => ?_
  simp only [formXNN, fieldX, fieldNN, fieldC, BitVec.getLsbD_append, BitVec.ofFin_toFin, BitVec.getLsbD_extractLsb']
  grind

theorem formXYN_fields (w : Word) : formXYN (fieldC w) (fieldX w) (fieldY w) (fieldN w) = w := by
  refine BitVec.eq_of_getLsbD_eq fun i hi => ?_
  simp only [formXYN, fieldX, fieldY, fieldC, fieldN, BitVec.getLsbD_append, BitVec.ofFin_toFin,
    BitVec.getLsbD_extractLsb']
  grind

/-- The two bytes of a word are the word again (R53). -/
@[simp] theorem wordOfBytes_bytesOfWord (w : Word) : wordOfBytes (w.extractLsb' 8 8) (w.extractLsb' 0 8) = w := by
  refine BitVec.eq_of_getLsbD_eq fun i hi => ?_
  simp only [wordOfBytes, BitVec.getLsbD_append, BitVec.getLsbD_extractLsb']
  grind

/-! ### Masks (R75) -/

theorem fieldC_and (w m : Word) : fieldC (w &&& m) = fieldC w &&& fieldC m := by
  simp [fieldC, BitVec.extractLsb'_and]

theorem fieldN_and (w m : Word) : fieldN (w &&& m) = fieldN w &&& fieldN m := by
  simp [fieldN, BitVec.extractLsb'_and]

theorem fieldNN_and (w m : Word) : fieldNN (w &&& m) = fieldNN w &&& fieldNN m := by
  simp [fieldNN, BitVec.extractLsb'_and]

theorem formNNN_and_category : formNNN c nnn &&& 0xF000#16 = formNNN c 0 := by
  rw [← formNNN_fields (formNNN c nnn &&& 0xF000#16), fieldC_and, fieldC_formNNN]
  congr 1
  · exact BitVec.and_allOnes
  · have h : fieldNNN (formNNN c nnn &&& 0xF000#16) = fieldNNN (formNNN c nnn) &&& 0#12 := by
      simp [fieldNNN, BitVec.extractLsb'_and]
    rw [h, BitVec.and_zero]; rfl

theorem formXNN_and_category : formXNN c x nn &&& 0xF000#16 = formNNN c 0 := by
  rw [← formNNN_fields (formXNN c x nn), formNNN_and_category, fieldC_formXNN]

theorem formXYN_and_category : formXYN c x y n &&& 0xF000#16 = formNNN c 0 := by
  rw [← formNNN_fields (formXYN c x y n), formNNN_and_category, fieldC_formXYN]

theorem formXNN_and_low_byte : formXNN c x nn &&& 0xF0FF#16 = formXNN c 0 nn := by
  refine BitVec.eq_of_getLsbD_eq fun i hi => ?_
  have h : (0xF0FF#16) = formXNN 0xF 0 0xFF := rfl
  rw [h, BitVec.getLsbD_and]
  simp only [formXNN, BitVec.getLsbD_append]
  interval_cases i <;> simp

theorem formXYN_and_low_nibble : formXYN c x y n &&& 0xF00F#16 = formXYN c 0 0 n := by
  refine BitVec.eq_of_getLsbD_eq fun i hi => ?_
  have h : (0xF00F#16) = formXYN 0xF 0 0 0xF := rfl
  rw [h, BitVec.getLsbD_and]
  simp only [formXYN, BitVec.getLsbD_append]
  interval_cases i <;> simp

end Sys2Proof
end

