-- ==== Sys2Proof/Laws/State.lean ====
section
/-! SUPPORT. One lemma per field per update of the state, and the laws of the register accessors. -/

namespace Sys2Proof.Machine

variable (s : State)

/-! ### setByte -/

@[simp] theorem setByte_mem (a : Nat) (x : Byte) : (s.setByte a x).mem = Memory.set s.background s.mem a x := rfl
@[simp] theorem setByte_v (a : Nat) (x : Byte) : (s.setByte a x).v = s.v := rfl
@[simp] theorem setByte_index (a : Nat) (x : Byte) : (s.setByte a x).index = s.index := rfl
@[simp] theorem setByte_pc (a : Nat) (x : Byte) : (s.setByte a x).pc = s.pc := rfl
@[simp] theorem setByte_stack (a : Nat) (x : Byte) : (s.setByte a x).stack = s.stack := rfl
@[simp] theorem setByte_dt (a : Nat) (x : Byte) : (s.setByte a x).dt = s.dt := rfl
@[simp] theorem setByte_st (a : Nat) (x : Byte) : (s.setByte a x).st = s.st := rfl
@[simp] theorem setByte_fb (a : Nat) (x : Byte) : (s.setByte a x).fb = s.fb := rfl
@[simp] theorem setByte_key (a : Nat) (x : Byte) : (s.setByte a x).key = s.key := rfl
@[simp] theorem setByte_run (a : Nat) (x : Byte) : (s.setByte a x).run = s.run := rfl
@[simp] theorem setByte_cfg (a : Nat) (x : Byte) : (s.setByte a x).cfg = s.cfg := rfl
@[simp] theorem setByte_rem (a : Nat) (x : Byte) : (s.setByte a x).rem = s.rem := rfl
@[simp] theorem setByte_params (a : Nat) (x : Byte) : (s.setByte a x).params = s.params := rfl
@[simp] theorem setByte_keyIn (a : Nat) (x : Byte) : (s.setByte a x).keyIn = s.keyIn := rfl
@[simp] theorem setByte_host (a : Nat) (x : Byte) : (s.setByte a x).host = s.host := rfl
@[simp] theorem setByte_signals (a : Nat) (x : Byte) : (s.setByte a x).signals = s.signals := rfl
@[simp] theorem setByte_randDraws (a : Nat) (x : Byte) : (s.setByte a x).randDraws = s.randDraws := rfl
@[simp] theorem setByte_keyDraws (a : Nat) (x : Byte) : (s.setByte a x).keyDraws = s.keyDraws := rfl
@[simp] theorem setByte_loads (a : Nat) (x : Byte) : (s.setByte a x).loads = s.loads := rfl

/-! ### setReg -/

@[simp] theorem setReg_mem (r : Reg) (x : Byte) : (s.setReg r x).mem = s.mem := rfl
@[simp] theorem setReg_v (r : Reg) (x : Byte) : (s.setReg r x).v = s.v.set r.val x := rfl
@[simp] theorem setReg_index (r : Reg) (x : Byte) : (s.setReg r x).index = s.index := rfl
@[simp] theorem setReg_pc (r : Reg) (x : Byte) : (s.setReg r x).pc = s.pc := rfl
@[simp] theorem setReg_stack (r : Reg) (x : Byte) : (s.setReg r x).stack = s.stack := rfl
@[simp] theorem setReg_dt (r : Reg) (x : Byte) : (s.setReg r x).dt = s.dt := rfl
@[simp] theorem setReg_st (r : Reg) (x : Byte) : (s.setReg r x).st = s.st := rfl
@[simp] theorem setReg_fb (r : Reg) (x : Byte) : (s.setReg r x).fb = s.fb := rfl
@[simp] theorem setReg_key (r : Reg) (x : Byte) : (s.setReg r x).key = s.key := rfl
@[simp] theorem setReg_run (r : Reg) (x : Byte) : (s.setReg r x).run = s.run := rfl
@[simp] theorem setReg_cfg (r : Reg) (x : Byte) : (s.setReg r x).cfg = s.cfg := rfl
@[simp] theorem setReg_rem (r : Reg) (x : Byte) : (s.setReg r x).rem = s.rem := rfl
@[simp] theorem setReg_params (r : Reg) (x : Byte) : (s.setReg r x).params = s.params := rfl
@[simp] theorem setReg_keyIn (r : Reg) (x : Byte) : (s.setReg r x).keyIn = s.keyIn := rfl
@[simp] theorem setReg_host (r : Reg) (x : Byte) : (s.setReg r x).host = s.host := rfl
@[simp] theorem setReg_signals (r : Reg) (x : Byte) : (s.setReg r x).signals = s.signals := rfl
@[simp] theorem setReg_randDraws (r : Reg) (x : Byte) : (s.setReg r x).randDraws = s.randDraws := rfl
@[simp] theorem setReg_keyDraws (r : Reg) (x : Byte) : (s.setReg r x).keyDraws = s.keyDraws := rfl
@[simp] theorem setReg_loads (r : Reg) (x : Byte) : (s.setReg r x).loads = s.loads := rfl

/-! ### setPc -/

@[simp] theorem setPc_mem (t : Word) : (s.setPc t).mem = s.mem := rfl
@[simp] theorem setPc_v (t : Word) : (s.setPc t).v = s.v := rfl
@[simp] theorem setPc_index (t : Word) : (s.setPc t).index = s.index := rfl
@[simp] theorem setPc_pc (t : Word) : (s.setPc t).pc = t := rfl
@[simp] theorem setPc_stack (t : Word) : (s.setPc t).stack = s.stack := rfl
@[simp] theorem setPc_dt (t : Word) : (s.setPc t).dt = s.dt := rfl
@[simp] theorem setPc_st (t : Word) : (s.setPc t).st = s.st := rfl
@[simp] theorem setPc_fb (t : Word) : (s.setPc t).fb = s.fb := rfl
@[simp] theorem setPc_key (t : Word) : (s.setPc t).key = s.key := rfl
@[simp] theorem setPc_run (t : Word) : (s.setPc t).run = s.run := rfl
@[simp] theorem setPc_cfg (t : Word) : (s.setPc t).cfg = s.cfg := rfl
@[simp] theorem setPc_rem (t : Word) : (s.setPc t).rem = s.rem := rfl
@[simp] theorem setPc_params (t : Word) : (s.setPc t).params = s.params := rfl
@[simp] theorem setPc_keyIn (t : Word) : (s.setPc t).keyIn = s.keyIn := rfl
@[simp] theorem setPc_host (t : Word) : (s.setPc t).host = s.host := rfl
@[simp] theorem setPc_signals (t : Word) : (s.setPc t).signals = s.signals := rfl
@[simp] theorem setPc_randDraws (t : Word) : (s.setPc t).randDraws = s.randDraws := rfl
@[simp] theorem setPc_keyDraws (t : Word) : (s.setPc t).keyDraws = s.keyDraws := rfl
@[simp] theorem setPc_loads (t : Word) : (s.setPc t).loads = s.loads := rfl

/-! ### setIndex -/

@[simp] theorem setIndex_mem (a : Word) : (s.setIndex a).mem = s.mem := rfl
@[simp] theorem setIndex_v (a : Word) : (s.setIndex a).v = s.v := rfl
@[simp] theorem setIndex_index (a : Word) : (s.setIndex a).index = a := rfl
@[simp] theorem setIndex_pc (a : Word) : (s.setIndex a).pc = s.pc := rfl
@[simp] theorem setIndex_stack (a : Word) : (s.setIndex a).stack = s.stack := rfl
@[simp] theorem setIndex_dt (a : Word) : (s.setIndex a).dt = s.dt := rfl
@[simp] theorem setIndex_st (a : Word) : (s.setIndex a).st = s.st := rfl
@[simp] theorem setIndex_fb (a : Word) : (s.setIndex a).fb = s.fb := rfl
@[simp] theorem setIndex_key (a : Word) : (s.setIndex a).key = s.key := rfl
@[simp] theorem setIndex_run (a : Word) : (s.setIndex a).run = s.run := rfl
@[simp] theorem setIndex_cfg (a : Word) : (s.setIndex a).cfg = s.cfg := rfl
@[simp] theorem setIndex_rem (a : Word) : (s.setIndex a).rem = s.rem := rfl
@[simp] theorem setIndex_params (a : Word) : (s.setIndex a).params = s.params := rfl
@[simp] theorem setIndex_keyIn (a : Word) : (s.setIndex a).keyIn = s.keyIn := rfl
@[simp] theorem setIndex_host (a : Word) : (s.setIndex a).host = s.host := rfl
@[simp] theorem setIndex_signals (a : Word) : (s.setIndex a).signals = s.signals := rfl
@[simp] theorem setIndex_randDraws (a : Word) : (s.setIndex a).randDraws = s.randDraws := rfl
@[simp] theorem setIndex_keyDraws (a : Word) : (s.setIndex a).keyDraws = s.keyDraws := rfl
@[simp] theorem setIndex_loads (a : Word) : (s.setIndex a).loads = s.loads := rfl

/-! ### emit -/

@[simp] theorem emit_mem (e : Signal) : (s.emit e).mem = s.mem := rfl
@[simp] theorem emit_v (e : Signal) : (s.emit e).v = s.v := rfl
@[simp] theorem emit_index (e : Signal) : (s.emit e).index = s.index := rfl
@[simp] theorem emit_pc (e : Signal) : (s.emit e).pc = s.pc := rfl
@[simp] theorem emit_stack (e : Signal) : (s.emit e).stack = s.stack := rfl
@[simp] theorem emit_dt (e : Signal) : (s.emit e).dt = s.dt := rfl
@[simp] theorem emit_st (e : Signal) : (s.emit e).st = s.st := rfl
@[simp] theorem emit_fb (e : Signal) : (s.emit e).fb = s.fb := rfl
@[simp] theorem emit_key (e : Signal) : (s.emit e).key = s.key := rfl
@[simp] theorem emit_run (e : Signal) : (s.emit e).run = s.run := rfl
@[simp] theorem emit_cfg (e : Signal) : (s.emit e).cfg = s.cfg := rfl
@[simp] theorem emit_rem (e : Signal) : (s.emit e).rem = s.rem := rfl
@[simp] theorem emit_params (e : Signal) : (s.emit e).params = s.params := rfl
@[simp] theorem emit_keyIn (e : Signal) : (s.emit e).keyIn = s.keyIn := rfl
@[simp] theorem emit_host (e : Signal) : (s.emit e).host = s.host := rfl
@[simp] theorem emit_signals (e : Signal) : (s.emit e).signals = e :: s.signals := rfl
@[simp] theorem emit_randDraws (e : Signal) : (s.emit e).randDraws = s.randDraws := rfl
@[simp] theorem emit_keyDraws (e : Signal) : (s.emit e).keyDraws = s.keyDraws := rfl
@[simp] theorem emit_loads (e : Signal) : (s.emit e).loads = s.loads := rfl

/-! ### raiseAt -/

@[simp] theorem raiseAt_mem (k : ErrorKind) (p : Word) : (s.raiseAt k p).mem = s.mem := rfl
@[simp] theorem raiseAt_v (k : ErrorKind) (p : Word) : (s.raiseAt k p).v = s.v := rfl
@[simp] theorem raiseAt_index (k : ErrorKind) (p : Word) : (s.raiseAt k p).index = s.index := rfl
@[simp] theorem raiseAt_pc (k : ErrorKind) (p : Word) : (s.raiseAt k p).pc = s.pc := rfl
@[simp] theorem raiseAt_stack (k : ErrorKind) (p : Word) : (s.raiseAt k p).stack = s.stack := rfl
@[simp] theorem raiseAt_dt (k : ErrorKind) (p : Word) : (s.raiseAt k p).dt = s.dt := rfl
@[simp] theorem raiseAt_st (k : ErrorKind) (p : Word) : (s.raiseAt k p).st = s.st := rfl
@[simp] theorem raiseAt_fb (k : ErrorKind) (p : Word) : (s.raiseAt k p).fb = s.fb := rfl
@[simp] theorem raiseAt_key (k : ErrorKind) (p : Word) : (s.raiseAt k p).key = s.key := rfl
@[simp] theorem raiseAt_run (k : ErrorKind) (p : Word) : (s.raiseAt k p).run = .halted k p := rfl
@[simp] theorem raiseAt_cfg (k : ErrorKind) (p : Word) : (s.raiseAt k p).cfg = s.cfg := rfl
@[simp] theorem raiseAt_rem (k : ErrorKind) (p : Word) : (s.raiseAt k p).rem = s.rem := rfl
@[simp] theorem raiseAt_params (k : ErrorKind) (p : Word) : (s.raiseAt k p).params = s.params := rfl
@[simp] theorem raiseAt_keyIn (k : ErrorKind) (p : Word) : (s.raiseAt k p).keyIn = s.keyIn := rfl
@[simp] theorem raiseAt_host (k : ErrorKind) (p : Word) : (s.raiseAt k p).host = s.host := rfl
@[simp] theorem raiseAt_signals (k : ErrorKind) (p : Word) : (s.raiseAt k p).signals = s.signals := rfl
@[simp] theorem raiseAt_randDraws (k : ErrorKind) (p : Word) : (s.raiseAt k p).randDraws = s.randDraws := rfl
@[simp] theorem raiseAt_keyDraws (k : ErrorKind) (p : Word) : (s.raiseAt k p).keyDraws = s.keyDraws := rfl
@[simp] theorem raiseAt_loads (k : ErrorKind) (p : Word) : (s.raiseAt k p).loads = s.loads := rfl

/-! ### raise -/

@[simp] theorem raise_mem (k : ErrorKind) : (s.raise k).mem = s.mem := rfl
@[simp] theorem raise_v (k : ErrorKind) : (s.raise k).v = s.v := rfl
@[simp] theorem raise_index (k : ErrorKind) : (s.raise k).index = s.index := rfl
@[simp] theorem raise_pc (k : ErrorKind) : (s.raise k).pc = s.pc := rfl
@[simp] theorem raise_stack (k : ErrorKind) : (s.raise k).stack = s.stack := rfl
@[simp] theorem raise_dt (k : ErrorKind) : (s.raise k).dt = s.dt := rfl
@[simp] theorem raise_st (k : ErrorKind) : (s.raise k).st = s.st := rfl
@[simp] theorem raise_fb (k : ErrorKind) : (s.raise k).fb = s.fb := rfl
@[simp] theorem raise_key (k : ErrorKind) : (s.raise k).key = s.key := rfl
@[simp] theorem raise_run (k : ErrorKind) : (s.raise k).run = .halted k (s.pc - 2) := rfl
@[simp] theorem raise_cfg (k : ErrorKind) : (s.raise k).cfg = s.cfg := rfl
@[simp] theorem raise_rem (k : ErrorKind) : (s.raise k).rem = s.rem := rfl
@[simp] theorem raise_params (k : ErrorKind) : (s.raise k).params = s.params := rfl
@[simp] theorem raise_keyIn (k : ErrorKind) : (s.raise k).keyIn = s.keyIn := rfl
@[simp] theorem raise_host (k : ErrorKind) : (s.raise k).host = s.host := rfl
@[simp] theorem raise_signals (k : ErrorKind) : (s.raise k).signals = s.signals := rfl
@[simp] theorem raise_randDraws (k : ErrorKind) : (s.raise k).randDraws = s.randDraws := rfl
@[simp] theorem raise_keyDraws (k : ErrorKind) : (s.raise k).keyDraws = s.keyDraws := rfl
@[simp] theorem raise_loads (k : ErrorKind) : (s.raise k).loads = s.loads := rfl

/-! ### setResultFlag -/

@[simp] theorem setResultFlag_mem (x : Reg) (r f : Byte) : (s.setResultFlag x r f).mem = s.mem := rfl
@[simp] theorem setResultFlag_v (x : Reg) (r f : Byte) : (s.setResultFlag x r f).v = (s.v.set x.val r).set 15 f := rfl
@[simp] theorem setResultFlag_index (x : Reg) (r f : Byte) : (s.setResultFlag x r f).index = s.index := rfl
@[simp] theorem setResultFlag_pc (x : Reg) (r f : Byte) : (s.setResultFlag x r f).pc = s.pc := rfl
@[simp] theorem setResultFlag_stack (x : Reg) (r f : Byte) : (s.setResultFlag x r f).stack = s.stack := rfl
@[simp] theorem setResultFlag_dt (x : Reg) (r f : Byte) : (s.setResultFlag x r f).dt = s.dt := rfl
@[simp] theorem setResultFlag_st (x : Reg) (r f : Byte) : (s.setResultFlag x r f).st = s.st := rfl
@[simp] theorem setResultFlag_fb (x : Reg) (r f : Byte) : (s.setResultFlag x r f).fb = s.fb := rfl
@[simp] theorem setResultFlag_key (x : Reg) (r f : Byte) : (s.setResultFlag x r f).key = s.key := rfl
@[simp] theorem setResultFlag_run (x : Reg) (r f : Byte) : (s.setResultFlag x r f).run = s.run := rfl
@[simp] theorem setResultFlag_cfg (x : Reg) (r f : Byte) : (s.setResultFlag x r f).cfg = s.cfg := rfl
@[simp] theorem setResultFlag_rem (x : Reg) (r f : Byte) : (s.setResultFlag x r f).rem = s.rem := rfl
@[simp] theorem setResultFlag_params (x : Reg) (r f : Byte) : (s.setResultFlag x r f).params = s.params := rfl
@[simp] theorem setResultFlag_keyIn (x : Reg) (r f : Byte) : (s.setResultFlag x r f).keyIn = s.keyIn := rfl
@[simp] theorem setResultFlag_host (x : Reg) (r f : Byte) : (s.setResultFlag x r f).host = s.host := rfl
@[simp] theorem setResultFlag_signals (x : Reg) (r f : Byte) : (s.setResultFlag x r f).signals = s.signals := rfl
@[simp] theorem setResultFlag_randDraws (x : Reg) (r f : Byte) : (s.setResultFlag x r f).randDraws = s.randDraws := rfl
@[simp] theorem setResultFlag_keyDraws (x : Reg) (r f : Byte) : (s.setResultFlag x r f).keyDraws = s.keyDraws := rfl
@[simp] theorem setResultFlag_loads (x : Reg) (r f : Byte) : (s.setResultFlag x r f).loads = s.loads := rfl

/-! ### loadRegs -/

@[simp] theorem loadRegs_mem (x : Reg) (a : Nat) : (s.loadRegs x a).mem = s.mem := rfl
@[simp] theorem loadRegs_index (x : Reg) (a : Nat) : (s.loadRegs x a).index = s.index := rfl
@[simp] theorem loadRegs_pc (x : Reg) (a : Nat) : (s.loadRegs x a).pc = s.pc := rfl
@[simp] theorem loadRegs_stack (x : Reg) (a : Nat) : (s.loadRegs x a).stack = s.stack := rfl
@[simp] theorem loadRegs_dt (x : Reg) (a : Nat) : (s.loadRegs x a).dt = s.dt := rfl
@[simp] theorem loadRegs_st (x : Reg) (a : Nat) : (s.loadRegs x a).st = s.st := rfl
@[simp] theorem loadRegs_fb (x : Reg) (a : Nat) : (s.loadRegs x a).fb = s.fb := rfl
@[simp] theorem loadRegs_key (x : Reg) (a : Nat) : (s.loadRegs x a).key = s.key := rfl
@[simp] theorem loadRegs_run (x : Reg) (a : Nat) : (s.loadRegs x a).run = s.run := rfl
@[simp] theorem loadRegs_cfg (x : Reg) (a : Nat) : (s.loadRegs x a).cfg = s.cfg := rfl
@[simp] theorem loadRegs_rem (x : Reg) (a : Nat) : (s.loadRegs x a).rem = s.rem := rfl
@[simp] theorem loadRegs_params (x : Reg) (a : Nat) : (s.loadRegs x a).params = s.params := rfl
@[simp] theorem loadRegs_keyIn (x : Reg) (a : Nat) : (s.loadRegs x a).keyIn = s.keyIn := rfl
@[simp] theorem loadRegs_host (x : Reg) (a : Nat) : (s.loadRegs x a).host = s.host := rfl
@[simp] theorem loadRegs_signals (x : Reg) (a : Nat) : (s.loadRegs x a).signals = s.signals := rfl
@[simp] theorem loadRegs_randDraws (x : Reg) (a : Nat) : (s.loadRegs x a).randDraws = s.randDraws := rfl
@[simp] theorem loadRegs_keyDraws (x : Reg) (a : Nat) : (s.loadRegs x a).keyDraws = s.keyDraws := rfl
@[simp] theorem loadRegs_loads (x : Reg) (a : Nat) : (s.loadRegs x a).loads = s.loads := rfl

/-! ### fetched -/

@[simp] theorem fetched_mem : (s.fetched).mem = s.mem := rfl
@[simp] theorem fetched_v : (s.fetched).v = s.v := rfl
@[simp] theorem fetched_index : (s.fetched).index = s.index := rfl
@[simp] theorem fetched_pc : (s.fetched).pc = s.pc + 2 := rfl
@[simp] theorem fetched_stack : (s.fetched).stack = s.stack := rfl
@[simp] theorem fetched_dt : (s.fetched).dt = s.dt := rfl
@[simp] theorem fetched_st : (s.fetched).st = s.st := rfl
@[simp] theorem fetched_fb : (s.fetched).fb = s.fb := rfl
@[simp] theorem fetched_key : (s.fetched).key = s.key := rfl
@[simp] theorem fetched_run : (s.fetched).run = s.run := rfl
@[simp] theorem fetched_cfg : (s.fetched).cfg = s.cfg := rfl
@[simp] theorem fetched_rem : (s.fetched).rem = s.rem - 1 := rfl
@[simp] theorem fetched_params : (s.fetched).params = s.params := rfl
@[simp] theorem fetched_keyIn : (s.fetched).keyIn = s.keyIn := rfl
@[simp] theorem fetched_host : (s.fetched).host = s.host := rfl
@[simp] theorem fetched_signals : (s.fetched).signals = s.signals := rfl
@[simp] theorem fetched_randDraws : (s.fetched).randDraws = s.randDraws := rfl
@[simp] theorem fetched_keyDraws : (s.fetched).keyDraws = s.keyDraws := rfl
@[simp] theorem fetched_loads : (s.fetched).loads = s.loads := rfl

/-! ### drawSprite -/

@[simp] theorem drawSprite_mem (x y : Reg) (n : Nibble) : (s.drawSprite x y n).mem = s.mem := rfl
@[simp] theorem drawSprite_index (x y : Reg) (n : Nibble) : (s.drawSprite x y n).index = s.index := rfl
@[simp] theorem drawSprite_pc (x y : Reg) (n : Nibble) : (s.drawSprite x y n).pc = s.pc := rfl
@[simp] theorem drawSprite_stack (x y : Reg) (n : Nibble) : (s.drawSprite x y n).stack = s.stack := rfl
@[simp] theorem drawSprite_dt (x y : Reg) (n : Nibble) : (s.drawSprite x y n).dt = s.dt := rfl
@[simp] theorem drawSprite_st (x y : Reg) (n : Nibble) : (s.drawSprite x y n).st = s.st := rfl
@[simp] theorem drawSprite_key (x y : Reg) (n : Nibble) : (s.drawSprite x y n).key = s.key := rfl
@[simp] theorem drawSprite_run (x y : Reg) (n : Nibble) : (s.drawSprite x y n).run = s.run := rfl
@[simp] theorem drawSprite_cfg (x y : Reg) (n : Nibble) : (s.drawSprite x y n).cfg = s.cfg := rfl
@[simp] theorem drawSprite_rem (x y : Reg) (n : Nibble) : (s.drawSprite x y n).rem = s.rem := rfl
@[simp] theorem drawSprite_params (x y : Reg) (n : Nibble) : (s.drawSprite x y n).params = s.params := rfl
@[simp] theorem drawSprite_keyIn (x y : Reg) (n : Nibble) : (s.drawSprite x y n).keyIn = s.keyIn := rfl
@[simp] theorem drawSprite_host (x y : Reg) (n : Nibble) : (s.drawSprite x y n).host = s.host := rfl
@[simp] theorem drawSprite_signals (x y : Reg) (n : Nibble) : (s.drawSprite x y n).signals = .render :: s.signals := rfl
@[simp] theorem drawSprite_randDraws (x y : Reg) (n : Nibble) : (s.drawSprite x y n).randDraws = s.randDraws := rfl
@[simp] theorem drawSprite_keyDraws (x y : Reg) (n : Nibble) : (s.drawSprite x y n).keyDraws = s.keyDraws := rfl
@[simp] theorem drawSprite_loads (x y : Reg) (n : Nibble) : (s.drawSprite x y n).loads = s.loads := rfl

/-! ### storeBytes, indexFlag, skipIf, endOfBatch -/

/-- Storing bytes changes memory alone. -/
theorem storeBytes_eq (s : State) (a : Nat) (xs : List Byte) :
    s.storeBytes a xs = { s with mem := (s.storeBytes a xs).mem } := by
  induction xs generalizing s a with
  | nil => rfl
  | cons x xs ih => rw [State.storeBytes, ih]; rfl

@[simp] theorem storeBytes_v (a : Nat) (xs : List Byte) : (s.storeBytes a xs).v = s.v := by rw [storeBytes_eq]
@[simp] theorem storeBytes_index (a : Nat) (xs : List Byte) : (s.storeBytes a xs).index = s.index := by rw [storeBytes_eq]
@[simp] theorem storeBytes_pc (a : Nat) (xs : List Byte) : (s.storeBytes a xs).pc = s.pc := by rw [storeBytes_eq]
@[simp] theorem storeBytes_stack (a : Nat) (xs : List Byte) : (s.storeBytes a xs).stack = s.stack := by rw [storeBytes_eq]
@[simp] theorem storeBytes_dt (a : Nat) (xs : List Byte) : (s.storeBytes a xs).dt = s.dt := by rw [storeBytes_eq]
@[simp] theorem storeBytes_st (a : Nat) (xs : List Byte) : (s.storeBytes a xs).st = s.st := by rw [storeBytes_eq]
@[simp] theorem storeBytes_fb (a : Nat) (xs : List Byte) : (s.storeBytes a xs).fb = s.fb := by rw [storeBytes_eq]
@[simp] theorem storeBytes_key (a : Nat) (xs : List Byte) : (s.storeBytes a xs).key = s.key := by rw [storeBytes_eq]
@[simp] theorem storeBytes_run (a : Nat) (xs : List Byte) : (s.storeBytes a xs).run = s.run := by rw [storeBytes_eq]
@[simp] theorem storeBytes_cfg (a : Nat) (xs : List Byte) : (s.storeBytes a xs).cfg = s.cfg := by rw [storeBytes_eq]
@[simp] theorem storeBytes_rem (a : Nat) (xs : List Byte) : (s.storeBytes a xs).rem = s.rem := by rw [storeBytes_eq]
@[simp] theorem storeBytes_params (a : Nat) (xs : List Byte) : (s.storeBytes a xs).params = s.params := by rw [storeBytes_eq]
@[simp] theorem storeBytes_keyIn (a : Nat) (xs : List Byte) : (s.storeBytes a xs).keyIn = s.keyIn := by rw [storeBytes_eq]
@[simp] theorem storeBytes_host (a : Nat) (xs : List Byte) : (s.storeBytes a xs).host = s.host := by rw [storeBytes_eq]
@[simp] theorem storeBytes_signals (a : Nat) (xs : List Byte) : (s.storeBytes a xs).signals = s.signals := by rw [storeBytes_eq]
@[simp] theorem storeBytes_randDraws (a : Nat) (xs : List Byte) : (s.storeBytes a xs).randDraws = s.randDraws := by rw [storeBytes_eq]
@[simp] theorem storeBytes_keyDraws (a : Nat) (xs : List Byte) : (s.storeBytes a xs).keyDraws = s.keyDraws := by rw [storeBytes_eq]
@[simp] theorem storeBytes_loads (a : Nat) (xs : List Byte) : (s.storeBytes a xs).loads = s.loads := by rw [storeBytes_eq]

/-- FX1E's flag changes the register file alone. -/
theorem indexFlag_eq (sum : Nat) : s.indexFlag sum = { s with v := (s.indexFlag sum).v } := by
  unfold State.indexFlag; split_ifs <;> rfl

@[simp] theorem indexFlag_mem (sum : Nat) : (s.indexFlag sum).mem = s.mem := by rw [indexFlag_eq]
@[simp] theorem indexFlag_index (sum : Nat) : (s.indexFlag sum).index = s.index := by rw [indexFlag_eq]
@[simp] theorem indexFlag_pc (sum : Nat) : (s.indexFlag sum).pc = s.pc := by rw [indexFlag_eq]
@[simp] theorem indexFlag_stack (sum : Nat) : (s.indexFlag sum).stack = s.stack := by rw [indexFlag_eq]
@[simp] theorem indexFlag_dt (sum : Nat) : (s.indexFlag sum).dt = s.dt := by rw [indexFlag_eq]
@[simp] theorem indexFlag_st (sum : Nat) : (s.indexFlag sum).st = s.st := by rw [indexFlag_eq]
@[simp] theorem indexFlag_fb (sum : Nat) : (s.indexFlag sum).fb = s.fb := by rw [indexFlag_eq]
@[simp] theorem indexFlag_key (sum : Nat) : (s.indexFlag sum).key = s.key := by rw [indexFlag_eq]
@[simp] theorem indexFlag_run (sum : Nat) : (s.indexFlag sum).run = s.run := by rw [indexFlag_eq]
@[simp] theorem indexFlag_cfg (sum : Nat) : (s.indexFlag sum).cfg = s.cfg := by rw [indexFlag_eq]
@[simp] theorem indexFlag_rem (sum : Nat) : (s.indexFlag sum).rem = s.rem := by rw [indexFlag_eq]
@[simp] theorem indexFlag_params (sum : Nat) : (s.indexFlag sum).params = s.params := by rw [indexFlag_eq]
@[simp] theorem indexFlag_keyIn (sum : Nat) : (s.indexFlag sum).keyIn = s.keyIn := by rw [indexFlag_eq]
@[simp] theorem indexFlag_host (sum : Nat) : (s.indexFlag sum).host = s.host := by rw [indexFlag_eq]
@[simp] theorem indexFlag_signals (sum : Nat) : (s.indexFlag sum).signals = s.signals := by rw [indexFlag_eq]
@[simp] theorem indexFlag_randDraws (sum : Nat) : (s.indexFlag sum).randDraws = s.randDraws := by rw [indexFlag_eq]
@[simp] theorem indexFlag_keyDraws (sum : Nat) : (s.indexFlag sum).keyDraws = s.keyDraws := by rw [indexFlag_eq]
@[simp] theorem indexFlag_loads (sum : Nat) : (s.indexFlag sum).loads = s.loads := by rw [indexFlag_eq]

/-- A skip changes PC alone. -/
theorem skipIf_eq (c : Bool) : s.skipIf c = s.setPc (if c then s.pc + 2 else s.pc) := by
  cases c <;> rfl

@[simp] theorem skipIf_pc (c : Bool) : (s.skipIf c).pc = if c then s.pc + 2 else s.pc := by
  rw [skipIf_eq]; rfl

@[simp] theorem skipIf_mem (c : Bool) : (s.skipIf c).mem = s.mem := by rw [skipIf_eq]; rfl
@[simp] theorem skipIf_v (c : Bool) : (s.skipIf c).v = s.v := by rw [skipIf_eq]; rfl
@[simp] theorem skipIf_index (c : Bool) : (s.skipIf c).index = s.index := by rw [skipIf_eq]; rfl
@[simp] theorem skipIf_stack (c : Bool) : (s.skipIf c).stack = s.stack := by rw [skipIf_eq]; rfl
@[simp] theorem skipIf_dt (c : Bool) : (s.skipIf c).dt = s.dt := by rw [skipIf_eq]; rfl
@[simp] theorem skipIf_st (c : Bool) : (s.skipIf c).st = s.st := by rw [skipIf_eq]; rfl
@[simp] theorem skipIf_fb (c : Bool) : (s.skipIf c).fb = s.fb := by rw [skipIf_eq]; rfl
@[simp] theorem skipIf_key (c : Bool) : (s.skipIf c).key = s.key := by rw [skipIf_eq]; rfl
@[simp] theorem skipIf_run (c : Bool) : (s.skipIf c).run = s.run := by rw [skipIf_eq]; rfl
@[simp] theorem skipIf_cfg (c : Bool) : (s.skipIf c).cfg = s.cfg := by rw [skipIf_eq]; rfl
@[simp] theorem skipIf_rem (c : Bool) : (s.skipIf c).rem = s.rem := by rw [skipIf_eq]; rfl
@[simp] theorem skipIf_params (c : Bool) : (s.skipIf c).params = s.params := by rw [skipIf_eq]; rfl
@[simp] theorem skipIf_keyIn (c : Bool) : (s.skipIf c).keyIn = s.keyIn := by rw [skipIf_eq]; rfl
@[simp] theorem skipIf_host (c : Bool) : (s.skipIf c).host = s.host := by rw [skipIf_eq]; rfl
@[simp] theorem skipIf_signals (c : Bool) : (s.skipIf c).signals = s.signals := by rw [skipIf_eq]; rfl
@[simp] theorem skipIf_randDraws (c : Bool) : (s.skipIf c).randDraws = s.randDraws := by rw [skipIf_eq]; rfl
@[simp] theorem skipIf_keyDraws (c : Bool) : (s.skipIf c).keyDraws = s.keyDraws := by rw [skipIf_eq]; rfl
@[simp] theorem skipIf_loads (c : Bool) : (s.skipIf c).loads = s.loads := by rw [skipIf_eq]; rfl

/-- The end of a batch changes the record of signals alone. -/
theorem endOfBatch_eq : s.endOfBatch = { s with signals := s.endOfBatch.signals } := by
  unfold State.endOfBatch; split_ifs <;> rfl

@[simp] theorem endOfBatch_signals :
    s.endOfBatch.signals = if s.run = .running ∧ s.rem = 0 then .render :: s.signals else s.signals := by
  unfold State.endOfBatch; split_ifs <;> rfl

@[simp] theorem endOfBatch_mem : s.endOfBatch.mem = s.mem := by rw [endOfBatch_eq]
@[simp] theorem endOfBatch_v : s.endOfBatch.v = s.v := by rw [endOfBatch_eq]
@[simp] theorem endOfBatch_index : s.endOfBatch.index = s.index := by rw [endOfBatch_eq]
@[simp] theorem endOfBatch_pc : s.endOfBatch.pc = s.pc := by rw [endOfBatch_eq]
@[simp] theorem endOfBatch_stack : s.endOfBatch.stack = s.stack := by rw [endOfBatch_eq]
@[simp] theorem endOfBatch_dt : s.endOfBatch.dt = s.dt := by rw [endOfBatch_eq]
@[simp] theorem endOfBatch_st : s.endOfBatch.st = s.st := by rw [endOfBatch_eq]
@[simp] theorem endOfBatch_fb : s.endOfBatch.fb = s.fb := by rw [endOfBatch_eq]
@[simp] theorem endOfBatch_key : s.endOfBatch.key = s.key := by rw [endOfBatch_eq]
@[simp] theorem endOfBatch_run : s.endOfBatch.run = s.run := by rw [endOfBatch_eq]
@[simp] theorem endOfBatch_cfg : s.endOfBatch.cfg = s.cfg := by rw [endOfBatch_eq]
@[simp] theorem endOfBatch_rem : s.endOfBatch.rem = s.rem := by rw [endOfBatch_eq]
@[simp] theorem endOfBatch_params : s.endOfBatch.params = s.params := by rw [endOfBatch_eq]
@[simp] theorem endOfBatch_keyIn : s.endOfBatch.keyIn = s.keyIn := by rw [endOfBatch_eq]
@[simp] theorem endOfBatch_host : s.endOfBatch.host = s.host := by rw [endOfBatch_eq]
@[simp] theorem endOfBatch_randDraws : s.endOfBatch.randDraws = s.randDraws := by rw [endOfBatch_eq]
@[simp] theorem endOfBatch_keyDraws : s.endOfBatch.keyDraws = s.keyDraws := by rw [endOfBatch_eq]
@[simp] theorem endOfBatch_loads : s.endOfBatch.loads = s.loads := by rw [endOfBatch_eq]

/-! ### Registers -/

/-- Reading a register after writing one. -/
@[simp] theorem reg_setReg (r q : Reg) (x : Byte) : (s.setReg r x).reg q = if q = r then x else s.reg q := by
  simp only [State.reg, State.setReg, Fin.getElem_fin, Vector.getElem_set, Fin.val_inj]
  simp only [eq_comm]

/-- The flag is the last write: with X = 15 it replaces the result (R121). -/
@[simp] theorem reg_setResultFlag (x q : Reg) (r f : Byte) :
    (s.setResultFlag x r f).reg q = if q = 15 then f else if q = x then r else s.reg q := by
  simp [State.setResultFlag, vf]

/-- Registers 0 to x come from memory, the others stay (R156). -/
@[simp] theorem reg_loadRegs (x q : Reg) (a : Nat) :
    (s.loadRegs x a).reg q = if q.val ≤ x.val then s.byteAt (a + q.val) else s.reg q := by
  simp [State.reg, State.loadRegs]

/-- What FX1E leaves in a register (R152). -/
@[simp] theorem reg_indexFlag (sum : Nat) (q : Reg) :
    (s.indexFlag sum).reg q =
      if q = 15 ∧ s.cfg.indexOverflowFlag = true then
        if 0x1000 ≤ sum then 1 else if s.params.fx1eClearVf then 0 else s.reg q
      else s.reg q := by
  unfold State.indexFlag
  split_ifs <;> simp_all

/-- A register read sees only the register file. -/
theorem reg_congr {s t : State} (h : t.v = s.v) (q : Reg) : t.reg q = s.reg q := by
  simp [State.reg, h]

@[simp] theorem reg_setByte (a : Nat) (x : Byte) (q : Reg) : (s.setByte a x).reg q = s.reg q := rfl
@[simp] theorem reg_setPc (t : Word) (q : Reg) : (s.setPc t).reg q = s.reg q := rfl
@[simp] theorem reg_setIndex (a : Word) (q : Reg) : (s.setIndex a).reg q = s.reg q := rfl
@[simp] theorem reg_emit (e : Signal) (q : Reg) : (s.emit e).reg q = s.reg q := rfl
@[simp] theorem reg_raiseAt (k : ErrorKind) (p : Word) (q : Reg) : (s.raiseAt k p).reg q = s.reg q := rfl
@[simp] theorem reg_raise (k : ErrorKind) (q : Reg) : (s.raise k).reg q = s.reg q := rfl
@[simp] theorem reg_fetched (q : Reg) : (s.fetched).reg q = s.reg q := rfl
@[simp] theorem reg_storeBytes (a : Nat) (xs : List Byte) (q : Reg) : (s.storeBytes a xs).reg q = s.reg q := reg_congr (storeBytes_v s a xs) q
@[simp] theorem reg_skipIf (c : Bool) (q : Reg) : (s.skipIf c).reg q = s.reg q := reg_congr (skipIf_v s c) q
@[simp] theorem reg_endOfBatch (q : Reg) : (s.endOfBatch).reg q = s.reg q := reg_congr (endOfBatch_v s ) q

end Sys2Proof.Machine
end

