-- ==== Sys2Proof/Laws/Memory.lean ====
section
/-! SUPPORT. The laws of memory: read after write, and that every memory operation keeps the canonical form. -/

namespace Sys2Proof.Machine

/-! ### Lists of cells -/

theorem get_insert (bg : Nat → Byte) (m : Memory) (a b : Nat) (x : Byte) :
    Memory.get bg (Memory.insert a x m) b = if b = a then x else Memory.get bg m b := by
  induction m with
  | nil => simp [Memory.insert, Memory.get]
  | cons c m ih => grind [Memory.insert, Memory.get]

theorem get_filter (bg : Nat → Byte) (m : Memory) (a b : Nat) :
    Memory.get bg (m.filter fun c => c.1 ≠ a) b = if b = a then bg a else Memory.get bg m b := by
  induction m with
  | nil => grind [Memory.get]
  | cons c m ih => grind [Memory.get]

/-- A read after a write: the value written at that address, every other address as before. -/
theorem get_set (bg : Nat → Byte) (m : Memory) (a b : Nat) (x : Byte) :
    Memory.get bg (Memory.set bg m a x) b = if b = a then x else Memory.get bg m b := by
  unfold Memory.set
  split_ifs with hx hb hb
  · rw [get_filter, if_pos hb, hx]
  · rw [get_filter, if_neg hb]
  · rw [get_insert, if_pos hb]
  · rw [get_insert, if_neg hb]

theorem mem_insert {a : Nat} {x : Byte} {m : Memory} {c : Host.Cell} (h : c ∈ Memory.insert a x m) :
    c = (a, x) ∨ c ∈ m := by
  induction m with
  | nil => simpa [Memory.insert] using h
  | cons d m ih => grind [Memory.insert]

theorem pairwise_insert (a : Nat) (x : Byte) (m : Memory) (h : m.Pairwise fun c d => c.1 < d.1) :
    (Memory.insert a x m).Pairwise fun c d => c.1 < d.1 := by
  induction m with
  | nil => simp [Memory.insert]
  | cons c m ih =>
    obtain ⟨b, y⟩ := c
    rw [List.pairwise_cons] at h
    simp only [Memory.insert]
    split_ifs with hlt heq
    · rw [List.pairwise_cons]
      refine ⟨fun d hd => ?_, ih h.2⟩
      rcases mem_insert hd with rfl | hd
      · exact hlt
      · exact h.1 d hd
    · subst heq; exact List.pairwise_cons.2 ⟨h.1, h.2⟩
    · have hab : a < b := by omega
      refine List.pairwise_cons.2 ⟨fun d hd => ?_, List.pairwise_cons.2 h⟩
      rcases List.mem_cons.1 hd with rfl | hd
      · exact hab
      · exact hab.trans (h.1 d hd)

/-- A write inside the address space keeps the canonical form. -/
theorem set_keeps_wf (bg : Nat → Byte) (m : Memory) (a : Nat) (x : Byte) (ha : a < 4096) (h : Memory.wf bg m) :
    Memory.wf bg (Memory.set bg m a x) := by
  unfold Memory.set
  split_ifs with hx
  · exact ⟨h.1.sublist List.filter_sublist, fun c hc => h.2 c (List.mem_filter.1 hc).1⟩
  · refine ⟨pairwise_insert a x m h.1, fun c hc => ?_⟩
    rcases mem_insert hc with rfl | hc
    · exact ⟨ha, hx⟩
    · exact h.2 c hc

/-- Canonical memories that read the same are the same list. -/
theorem wf_ext (bg : Nat → Byte) {m n : Memory} (hm : Memory.wf bg m) (hn : Memory.wf bg n)
    (h : ∀ a, Memory.get bg m a = Memory.get bg n a) : m = n := by
  have key : ∀ (k : Memory), Memory.wf bg k → ∀ c, c ∈ k ↔ Memory.get bg k c.1 = c.2 ∧ c.2 ≠ bg c.1 := by
    intro k
    induction k with
    | nil => intro _ c; simp [Memory.get]; intro h; exact h.symm
    | cons d k ih =>
      intro hk c
      have hk' : Memory.wf bg k := ⟨hk.1.of_cons, fun e he => hk.2 e (List.mem_cons_of_mem _ he)⟩
      have hd := hk.2 d (by simp)
      have hlt := (List.pairwise_cons.1 hk.1).1
      obtain ⟨b, y⟩ := d
      obtain ⟨a, x⟩ := c
      simp only [List.mem_cons, Memory.get, Prod.mk.injEq]
      split_ifs with hab
      · subst hab
        constructor
        · rintro (⟨-, rfl⟩ | hc)
          · exact ⟨rfl, hd.2⟩
          · exact absurd (hlt _ hc) (by simp)
        · rintro ⟨rfl, -⟩; exact .inl ⟨rfl, rfl⟩
      · rw [ih hk' (a, x)]; simp [hab]
  have hsame : ∀ c, c ∈ m ↔ c ∈ n := fun c => by rw [key m hm, key n hn, h]
  have irr : ∀ (k : Memory), k.Pairwise (fun c d => c.1 < d.1) → k.Nodup := fun k hk =>
    hk.imp fun {c d} hcd heq => absurd hcd (by simp [heq])
  exact ((List.perm_ext_iff_of_nodup (irr m hm.1) (irr n hn.1)).2 hsame).eq_of_pairwise
    (fun c d _ _ h1 h2 => absurd (h1.trans h2) (lt_irrefl _)) hm.1 hn.1

/-! ### The state's memory -/

variable (s : State)

/-- A byte read sees memory, the parameters and the load count, nothing else. -/
theorem byteAt_congr {s t : State} (hm : t.mem = s.mem) (hp : t.params = s.params) (hl : t.loads = s.loads)
    (a : Nat) : t.byteAt a = s.byteAt a := by
  simp [State.byteAt, State.background, hm, hp, hl]

@[simp] theorem background_setByte (a : Nat) (x : Byte) : (s.setByte a x).background = s.background := rfl

/-- Reading a byte after writing one. -/
@[simp] theorem byteAt_setByte (a b : Nat) (x : Byte) :
    (s.setByte a x).byteAt b = if b = a then x else s.byteAt b := get_set _ _ _ _ _

/-- Reading a byte after storing a run of them (R54, R56). -/
theorem byteAt_storeBytes (xs : List Byte) (s : State) (a b : Nat) :
    (s.storeBytes a xs).byteAt b = if h : a ≤ b ∧ b < a + xs.length then xs[b - a] else s.byteAt b := by
  induction xs generalizing s a with
  | nil => simp [State.storeBytes]
  | cons x xs ih =>
    rw [State.storeBytes, ih]
    by_cases h1 : b = a
    · subst h1; simp
    · by_cases h2 : a + 1 ≤ b ∧ b < a + 1 + xs.length
      · have h3 : a ≤ b ∧ b < a + (x :: xs).length := by simp; omega
        have h4 : b - a = (b - (a + 1)) + 1 := by omega
        simp only [dif_pos h2, dif_pos h3, h4, List.getElem_cons_succ]
      · have h3 : ¬(a ≤ b ∧ b < a + (x :: xs).length) := by simp; omega
        rw [dif_neg h2, dif_neg h3, byteAt_setByte, if_neg h1]

/-- A run of bytes stored inside the address space keeps the canonical form. -/
theorem storeBytes_keeps_wf (xs : List Byte) (s : State) (a : Nat) (ha : a + xs.length ≤ 4096)
    (h : Memory.wf s.background s.mem) :
    Memory.wf (s.storeBytes a xs).background (s.storeBytes a xs).mem := by
  induction xs generalizing s a with
  | nil => exact h
  | cons x xs ih =>
    simp only [List.length_cons] at ha
    exact ih (s.setByte a x) (a + 1) (by omega) (set_keeps_wf _ _ _ _ (by omega) h)

/-! ### Bytes after updates of other parts -/

@[simp] theorem byteAt_setReg (r : Reg) (x : Byte) (a : Nat) : (s.setReg r x).byteAt a = s.byteAt a := rfl
@[simp] theorem byteAt_setPc (t : Word) (a : Nat) : (s.setPc t).byteAt a = s.byteAt a := rfl
@[simp] theorem byteAt_setIndex (i : Word) (a : Nat) : (s.setIndex i).byteAt a = s.byteAt a := rfl
@[simp] theorem byteAt_emit (e : Signal) (a : Nat) : (s.emit e).byteAt a = s.byteAt a := rfl
@[simp] theorem byteAt_raiseAt (k : ErrorKind) (p : Word) (a : Nat) : (s.raiseAt k p).byteAt a = s.byteAt a := rfl
@[simp] theorem byteAt_raise (k : ErrorKind) (a : Nat) : (s.raise k).byteAt a = s.byteAt a := rfl
@[simp] theorem byteAt_setResultFlag (x : Reg) (r f : Byte) (a : Nat) : (s.setResultFlag x r f).byteAt a = s.byteAt a := rfl
@[simp] theorem byteAt_loadRegs (x : Reg) (b : Nat) (a : Nat) : (s.loadRegs x b).byteAt a = s.byteAt a := rfl
@[simp] theorem byteAt_fetched (a : Nat) : (s.fetched).byteAt a = s.byteAt a := rfl
@[simp] theorem byteAt_drawSprite (x y : Reg) (n : Nibble) (a : Nat) : (s.drawSprite x y n).byteAt a = s.byteAt a := rfl
@[simp] theorem byteAt_indexFlag (sum : Nat) (a : Nat) : (s.indexFlag sum).byteAt a = s.byteAt a := by simp [State.byteAt, State.background]
@[simp] theorem byteAt_skipIf (c : Bool) (a : Nat) : (s.skipIf c).byteAt a = s.byteAt a := by simp [State.byteAt, State.background]
@[simp] theorem byteAt_endOfBatch (a : Nat) : (s.endOfBatch).byteAt a = s.byteAt a := by simp [State.byteAt, State.background]

/-! ### Frames -/

/-- The parts are all of the state: what keeps every part but memory is the state with its memory replaced. -/
theorem eq_of_keepsAllBut_mem {s t : State} (h : KeepsAllBut [.mem] s t) : t = { s with mem := t.mem } := by
  have hp : ∀ p, p ≠ Part.mem → p.same s t := fun p hne => h p (by simpa using hne)
  obtain ⟨⟩ := t
  have h1 := hp .v (by simp); have h2 := hp .index (by simp); have h3 := hp .pc (by simp)
  have h4 := hp .stack (by simp); have h5 := hp .dt (by simp); have h6 := hp .st (by simp)
  have h7 := hp .fb (by simp); have h8 := hp .key (by simp); have h9 := hp .run (by simp)
  have h10 := hp .cfg (by simp); have h11 := hp .rem (by simp); have h12 := hp .params (by simp)
  have h13 := hp .keyIn (by simp); have h14 := hp .host (by simp); have h15 := hp .signals (by simp)
  have h16 := hp .randDraws (by simp); have h17 := hp .keyDraws (by simp); have h18 := hp .loads (by simp)
  simp only [Part.same] at *
  subst_vars
  rfl

/-- Two canonical states that no part tells apart are one state. -/
theorem eq_of_keepsAllBut_nil {s t : State} (hs : Memory.wf s.background s.mem) (ht : Memory.wf t.background t.mem)
    (h : KeepsAllBut [] s t) : t = s := by
  have hm := eq_of_keepsAllBut_mem fun p _ => h p (by simp)
  have hp : t.params = s.params := h .params (by simp)
  have hl : t.loads = s.loads := h .loads (by simp)
  have hb : t.background = s.background := by simp [State.background, hp, hl]
  rw [hb] at ht
  have hmem : t.mem = s.mem := wf_ext s.background ht hs fun a => by
    have := h .mem (by simp) a
    simpa [State.byteAt, hb] using this
  rw [hm, hmem]

/-- A fault changes `RUN` and nothing else (R232). -/
theorem raise_frame (k : ErrorKind) : KeepsAllBut [.run] s (s.raise k) := by
  intro p hp
  cases p <;> simp_all [Part.same]

end Sys2Proof.Machine
end

