-- ==== Sys2Proof/Laws/Draw.lean ====
section
/-! SUPPORT. What the draw loops compute, in closed form (spec/43_display.md R171, R172). -/

namespace Sys2Proof.Machine

/-- One bit toggled in a row (R171). -/
theorem getLsbD_toggle (row : BitVec 64) (k x : Nat) (hx : x < 64) :
    (row ^^^ (1#64 <<< k)).getLsbD x = (row.getLsbD x ^^ decide (x = k)) := by
  have h : (1#64 <<< k).getLsbD x = decide (x = k) := by
    rw [BitVec.getLsbD_shiftLeft, BitVec.getLsbD_one]
    rcases Nat.lt_trichotomy x k with h | h | h
    · have h1 : x ≠ k := by omega
      simp [h, h1]
    · subst h; simp [hx]
    · have h1 : x ≠ k := by omega
      have h2 : x - k ≠ 0 := by omega
      simp [h1, h2]
  rw [BitVec.getLsbD_xor, h]

/-- The row after the inner loop: each column from `x0 + b` on is toggled where the sprite byte has a 1. -/
theorem drawBits_row (byte : Byte) (x0 : Nat) (left b : Nat) (row : BitVec 64) (hit : Bool) (x : Nat) (hx : x < 64) :
    (drawBits byte x0 left b (row, hit)).1.getLsbD x =
      (row.getLsbD x ^^ (decide (x0 + b ≤ x ∧ x < x0 + b + left) && byte.getLsbD (7 - (x - x0)))) := by
  induction left generalizing b row hit with
  | zero =>
    have : ¬(x0 + b ≤ x ∧ x < x0 + b + 0) := by omega
    simp only [drawBits, this, decide_false, Bool.false_and, Bool.xor_false]
  | succ left ih =>
    rw [drawBits]
    split_ifs with hclip hbit
    · have : ¬(x0 + b ≤ x ∧ x < x0 + b + (left + 1)) := by omega
      simp [this]
    · rw [ih, getLsbD_toggle _ _ _ hx]
      by_cases hxb : x = x0 + b
      · simp [hbit, hxb]
      · have h1 : (x0 + (b + 1) ≤ x ∧ x < x0 + (b + 1) + left) ↔ (x0 + b ≤ x ∧ x < x0 + b + (left + 1)) := by omega
        simp [h1, hxb]
    · rw [ih]
      by_cases hxb : x = x0 + b
      · have h3 : 7 - (x - x0) = 7 - b := by omega
        have hb : byte.getLsbD (7 - b) = false := by simpa using hbit
        simp [h3, hb]
      · have h1 : (x0 + (b + 1) ≤ x ∧ x < x0 + (b + 1) + left) ↔ (x0 + b ≤ x ∧ x < x0 + b + (left + 1)) := by omega
        simp [h1]

/-- The collision after the inner loop: a column the sprite has a 1 in was on before. -/
theorem drawBits_hit (byte : Byte) (x0 : Nat) (left b : Nat) (row : BitVec 64) (hit : Bool) :
    (drawBits byte x0 left b (row, hit)).2 = true ↔
      hit = true ∨ ∃ x, x < 64 ∧ x0 + b ≤ x ∧ x < x0 + b + left ∧ byte.getLsbD (7 - (x - x0)) = true ∧
        row.getLsbD x = true := by
  induction left generalizing b row hit with
  | zero => simp [drawBits]; intros; omega
  | succ left ih =>
    rw [drawBits]
    split_ifs with hclip hbit
    · constructor
      · exact .inl
      · rintro (h | ⟨x, h⟩)
        · exact h
        · omega
    · rw [ih]
      have h3 : 7 - (x0 + b - x0) = 7 - b := by omega
      constructor
      · rintro (h | ⟨x, hx, h1, h2, h4, h5⟩)
        · rcases Bool.or_eq_true _ _ |>.mp h with h | h
          · exact .inl h
          · exact .inr ⟨x0 + b, by omega, by omega, by omega, by rw [h3]; exact hbit, h⟩
        · rw [getLsbD_toggle _ _ _ hx] at h5
          exact .inr ⟨x, hx, by omega, by omega, h4, by simpa [show x ≠ x0 + b by omega] using h5⟩
      · rintro (h | ⟨x, hx, h1, h2, h4, h5⟩)
        · exact .inl (by simp [h])
        · by_cases hxb : x = x0 + b
          · subst hxb; exact .inl (by simp [h5])
          · refine .inr ⟨x, hx, by omega, by omega, h4, ?_⟩
            rw [getLsbD_toggle _ _ _ hx]; simpa [hxb] using h5
    · rw [ih]
      refine or_congr_right (exists_congr fun x => and_congr_right fun hx => ?_)
      by_cases hxb : x = x0 + b
      · have h3 : 7 - (x - x0) = 7 - b := by omega
        rw [h3]
        constructor
        · rintro ⟨h1, -⟩; omega
        · rintro ⟨-, -, h4, -⟩; exact absurd h4 hbit
      · exact ⟨fun ⟨h1, h2, h4⟩ => ⟨by omega, by omega, h4⟩, fun ⟨h1, h2, h4⟩ => ⟨by omega, by omega, h4⟩⟩

/-- The sprite covers pixel (x, y) with a 1 bit, among its rows `r` to `r + left - 1`. -/
def covers (sprite : Nat → Byte) (x0 y0 r left x y : Nat) : Bool :=
  decide (x0 ≤ x ∧ x < x0 + 8 ∧ y0 + r ≤ y ∧ y < y0 + r + left) && (sprite (y - y0)).getLsbD (7 - (x - x0))

theorem covers_zero (sprite : Nat → Byte) (x0 y0 r x y : Nat) : covers sprite x0 y0 r 0 x y = false := by
  have : ¬(x0 ≤ x ∧ x < x0 + 8 ∧ y0 + r ≤ y ∧ y < y0 + r + 0) := by omega
  simp only [covers, this, decide_false, Bool.false_and]

/-- The first row, and the rows after it. -/
theorem covers_succ (sprite : Nat → Byte) (x0 y0 r left x y : Nat) :
    covers sprite x0 y0 r (left + 1) x y =
      if y = y0 + r then decide (x0 ≤ x ∧ x < x0 + 8) && (sprite r).getLsbD (7 - (x - x0))
      else covers sprite x0 y0 (r + 1) left x y := by
  split_ifs with h
  · have h1 : (x0 ≤ x ∧ x < x0 + 8 ∧ y0 + r ≤ y ∧ y < y0 + r + (left + 1)) ↔ (x0 ≤ x ∧ x < x0 + 8) := by omega
    have h2 : y - y0 = r := by omega
    simp only [covers, h1, h2]
  · have h1 : (x0 ≤ x ∧ x < x0 + 8 ∧ y0 + r ≤ y ∧ y < y0 + r + (left + 1)) ↔
        (x0 ≤ x ∧ x < x0 + 8 ∧ y0 + (r + 1) ≤ y ∧ y < y0 + (r + 1) + left) := by omega
    simp only [covers, h1]

/-- One row of the framebuffer written. -/
theorem screenPixel_set (fb : Screen) (k : Nat) (hk : k < 32) (row : BitVec 64) (x y : Nat) :
    screenPixel (fb.set k row) x y = if y = k then row.getLsbD x else screenPixel fb x y := by
  unfold screenPixel
  by_cases hy : y < 32
  · by_cases hyk : y = k
    · subst hyk; simp [hy]
    · simp [hy, hyk, show k ≠ y from fun h => hyk h.symm]
  · simp [hy, show y ≠ k by omega]

/-- The picture after the outer loop: every pixel the sprite covers is toggled, no other (R171, R172). -/
theorem drawRows_pixel (sprite : Nat → Byte) (x0 y0 : Nat) (left r : Nat) (fb : Screen) (hit : Bool) (x y : Nat)
    (hx : x < 64) (hy : y < 32) :
    screenPixel (drawRows sprite x0 y0 left r (fb, hit)).1 x y =
      (screenPixel fb x y ^^ covers sprite x0 y0 r left x y) := by
  induction left generalizing r fb hit with
  | zero => simp [drawRows, covers_zero]
  | succ left ih =>
    rw [drawRows]
    split_ifs with hclip
    · simp only
      rw [ih, screenPixel_set, covers_succ]
      split_ifs with hyr
      · subst hyr
        rw [drawBits_row _ _ _ _ _ _ _ hx]
        have h0 : covers sprite x0 y0 (r + 1) left x (y0 + r) = false := by
          have : ¬(x0 ≤ x ∧ x < x0 + 8 ∧ y0 + (r + 1) ≤ y0 + r ∧ y0 + r < y0 + (r + 1) + left) := by omega
          simp only [covers, this, decide_false, Bool.false_and]
        simp [h0, screenPixel, hclip]
      · rfl
    · have : covers sprite x0 y0 r (left + 1) x y = false := by
        have : ¬(x0 ≤ x ∧ x < x0 + 8 ∧ y0 + r ≤ y ∧ y < y0 + r + (left + 1)) := by omega
        simp only [covers, this, decide_false, Bool.false_and]
      simp [this]

/-- The collision after the outer loop: some pixel on the screen was on and the sprite covers it (R171, R173). -/
theorem drawRows_hit (sprite : Nat → Byte) (x0 y0 : Nat) (left r : Nat) (fb : Screen) (hit : Bool) :
    (drawRows sprite x0 y0 left r (fb, hit)).2 = true ↔
      hit = true ∨ ∃ x y, OnScreen x y ∧ covers sprite x0 y0 r left x y = true ∧ screenPixel fb x y = true := by
  induction left generalizing r fb hit with
  | zero => simp [drawRows, covers_zero]
  | succ left ih =>
    rw [drawRows]
    split_ifs with hclip
    · simp only
      rw [ih, drawBits_hit]
      constructor
      · rintro ((h | ⟨x, hx, h1, h2, h3, h4⟩) | ⟨x, y, hs, hc, hp⟩)
        · exact .inl h
        · refine .inr ⟨x, y0 + r, ⟨hx, hclip⟩, ?_, ?_⟩
          · rw [covers_succ, if_pos rfl]; simp only [h3, Bool.and_true, decide_eq_true_eq]; omega
          · simpa [screenPixel, hclip] using h4
        · have hy : y ≠ y0 + r := by
            rintro rfl
            simp only [covers, Bool.and_eq_true, decide_eq_true_eq] at hc; omega
          rw [screenPixel_set, if_neg hy] at hp
          exact .inr ⟨x, y, hs, by rw [covers_succ, if_neg hy]; exact hc, hp⟩
      · rintro (h | ⟨x, y, hs, hc, hp⟩)
        · exact .inl (.inl h)
        · rw [covers_succ] at hc
          split_ifs at hc with hy
          · subst hy
            simp only [Bool.and_eq_true, decide_eq_true_eq] at hc
            refine .inl (.inr ⟨x, hs.1, by omega, by omega, hc.2, ?_⟩)
            simpa [screenPixel, hclip] using hp
          · refine .inr ⟨x, y, hs, hc, ?_⟩
            rw [screenPixel_set, if_neg hy]; exact hp
    · constructor
      · exact .inl
      · rintro (h | ⟨x, y, hs, hc, -⟩)
        · exact h
        · simp only [covers, Bool.and_eq_true, decide_eq_true_eq] at hc
          exact absurd hs.2 (by omega)

/-! ### DXYN on the state -/

variable (s : State) (x y : Reg) (n : Nibble)

/-- The closed form of R171's sprite is what the loops cover. -/
theorem covers_eq_spriteBit (px py : Nat) :
    covers (fun r => s.byteAt (s.indexed r)) (s.startColumn x) (s.startRow y) 0 n.toNat px py =
      s.spriteBit x y n px py := by
  simp [covers, State.spriteBit, State.indexed, State.startColumn, State.startRow]

/-- The picture DXYN leaves (R171). -/
theorem pixel_drawSprite (px py : Nat) (h : OnScreen px py) :
    (s.drawSprite x y n).pixel px py = (s.pixel px py ^^ s.spriteBit x y n px py) := by
  rw [← covers_eq_spriteBit]
  exact drawRows_pixel _ _ _ _ _ _ _ _ _ h.1 h.2

/-- The collision flag DXYN leaves, and that no other register changes (R171, R22). -/
theorem reg_drawSprite (q : Reg) [Decidable (s.Collides x y n)] :
    (s.drawSprite x y n).reg q = if q = 15 then (if s.Collides x y n then 1 else 0) else s.reg q := by
  have hiff : (drawRows (fun r => s.byteAt (s.indexed r)) (s.startColumn x) (s.startRow y) n.toNat 0
      (s.fb, false)).2 = true ↔ s.Collides x y n := by
    rw [drawRows_hit]
    simp only [covers_eq_spriteBit, State.Collides, State.pixel, Bool.false_eq_true, false_or]
  have hreg : (s.drawSprite x y n).reg q = if q = 15 then
      collisionFlag (drawRows (fun r => s.byteAt (s.indexed r)) (s.startColumn x) (s.startRow y) n.toNat 0
        (s.fb, false)).2 else s.reg q := by
    simp only [State.drawSprite, reg_emit, reg_setReg, vf]
    split_ifs <;> rfl
  rw [hreg, collisionFlag, flagByte]
  simp only [hiff]

end Sys2Proof.Machine
end

