-- ==== Sys2Proof/Laws/Ops.lean ====
section
/-! SUPPORT. One lemma for each shared operation: everything it can do, said once. -/

namespace Sys2Proof.Machine

variable (s : State)

/-! ### Checks, stack -/

/-- A guarded instruction faults on a high address and otherwise does what stands behind the guard (R52, R151). -/
theorem guardAddress_of_lt {last : Nat} (k : Result) (h : last < 4096) : s.guardAddress last k = k := by
  simp [State.guardAddress, Nat.not_le.2 h]

theorem guardAddress_of_le {last : Nat} (k : Result) (h : 4096 ≤ last) :
    s.guardAddress last k = .next (s.raise .outOfBoundsAccess) := by
  simp [State.guardAddress, h]

/-- What a guarded instruction can answer. -/
theorem guardAddress_next {last : Nat} {k : Result} {t : State} (h : s.guardAddress last k = .next t) :
    (4096 ≤ last ∧ t = s.raise .outOfBoundsAccess) ∨ (last < 4096 ∧ k = .next t) := by
  by_cases hl : 4096 ≤ last
  · rw [guardAddress_of_le s k hl] at h; cases h; exact .inl ⟨hl, rfl⟩
  · rw [guardAddress_of_lt s k (by omega)] at h; exact .inr ⟨by omega, h⟩

/-- `Push` below depth 16 (R28). -/
theorem push_of_lt (a : Word) (h : s.stack.length < 16) : s.push a = some { s with stack := s.stack ++ [a] } := by
  simp [State.push, Nat.not_le.2 h]

/-- `Push` on a full stack (R28). -/
theorem push_of_full (a : Word) (h : 16 ≤ s.stack.length) : s.push a = none := by
  simp [State.push, h]

/-- `Pop` of a stack whose top is `a` (R28). -/
theorem pop_of_append {st : List Word} {a : Word} (h : s.stack = st ++ [a]) :
    s.pop = some (a, { s with stack := st }) := by
  simp [State.pop, h]

/-- `Pop` of an empty stack (R28). -/
theorem pop_of_nil (h : s.stack = []) : s.pop = none := by
  simp [State.pop, h]

/-! ### Operands -/

@[simp] theorem toNat_addrWord (nnn : Addr12) : (addrWord nnn).toNat = nnn.toNat := by
  simp only [addrWord, BitVec.toNat_setWidth]; omega

/-- BNNN's target does not wrap: at most 0xFFF + 0xFF (R103). -/
theorem toNat_jumpTarget (x : Reg) (nnn : Addr12) :
    (s.jumpTarget x nnn).toNat = nnn.toNat + (s.jumpOffset x).toNat := by
  have h1 := nnn.isLt
  have h2 := (s.jumpOffset x).isLt
  simp only [State.jumpTarget, BitVec.toNat_add, toNat_addrWord, BitVec.toNat_setWidth]
  omega

/-- FX29's address lies in the font table (R153). -/
theorem toNat_glyphAddress (b : Byte) : (glyphAddress b).toNat = 0x050 + 5 * (b.toNat % 16) := by
  simp only [glyphAddress, BitVec.toNat_ofNat]; omega

theorem val_lowKey (b : Byte) : (lowKey b).val = b.toNat % 16 := by
  simp [lowKey]

/-- The key number of EX9E and EXA1 (R186). -/
theorem keyNumber_eq (b : Byte) :
    s.keyNumber b = if s.params.keyIndexPolicy = .fault ∧ 15 < b.toNat then none else some (lowKey b) := by
  unfold State.keyNumber
  cases s.params.keyIndexPolicy <;> simp

/-- The pressed keys are the keys whose bit is set (R182). -/
theorem mem_pressedKeys (k : Fin 16) : k ∈ s.pressedKeys ↔ s.pressed k = true := by
  simp [State.pressedKeys, List.mem_finRange]

/-- No key is pressed when the snapshot is 0. -/
theorem pressedKeys_eq_nil : s.pressedKeys = [] ↔ s.key = 0#16 := by
  constructor
  · intro h
    refine BitVec.eq_of_getLsbD_eq fun i hi => ?_
    have h1 : (⟨i, hi⟩ : Fin 16) ∉ s.pressedKeys := by simp [h]
    rw [mem_pressedKeys] at h1
    simpa [State.pressed] using h1
  · intro h
    refine List.eq_nil_iff_forall_not_mem.2 fun k hk => ?_
    rw [mem_pressedKeys] at hk
    simp [State.pressed, h] at hk

/-- The first of the pressed keys is the lowest (R182). -/
theorem pressedKeys_head_le {k : Fin 16} {ks : List (Fin 16)} (h : s.pressedKeys = k :: ks) (j : Fin 16)
    (hj : s.pressed j = true) : k ≤ j := by
  have hs : s.pressedKeys.Pairwise (· < ·) :=
    (List.pairwise_lt_finRange 16).sublist List.filter_sublist
  rw [← mem_pressedKeys, h] at hj
  rw [h, List.pairwise_cons] at hs
  rcases List.mem_cons.1 hj with rfl | hj
  · exact le_rfl
  · exact (hs.1 j hj).le

/-- FX0A's choice is one of the pressed keys, and the lowest under the policy `lowest`; of the state it changes the
draw counter alone (R182). -/
theorem chooseKey_spec {k : Fin 16} {ks : List (Fin 16)} :
    (s.chooseKey k ks).1 ∈ k :: ks ∧ (s.params.fx0aKeyChoice = .lowest → (s.chooseKey k ks).1 = k) ∧
      (s.chooseKey k ks).2 = { s with keyDraws := (s.chooseKey k ks).2.keyDraws } := by
  unfold State.chooseKey
  cases s.params.fx0aKeyChoice
  · refine ⟨?_, by simp, rfl⟩
    have h : Config.keyDraw s.keyDraws % (ks.length + 1) < (k :: ks).length := Nat.mod_lt _ (by simp)
    simp only [List.getD_eq_getElem _ _ h]
    exact List.getElem_mem h
  · exact ⟨by simp, by simp, rfl⟩

/-! ### Transfers -/

theorem length_bcdDigits (b : Byte) : (bcdDigits b).length = 3 := rfl

theorem length_regsThrough (x : Reg) : (s.regsThrough x).length = x.val + 1 := by
  simp [State.regsThrough]

/-- The bytes FX55 stores are V0, V1, ... (R155). -/
theorem getElem_regsThrough (x : Reg) (k : Nat) (h : k < (s.regsThrough x).length) :
    (s.regsThrough x)[k] = s.reg ⟨k, by rw [length_regsThrough] at h; omega⟩ := by
  simp [State.regsThrough, State.reg]

/-! ### Flags -/

theorem flagByte_eq (b : Bool) : flagByte b = if b = true then 1 else 0 := rfl

end Sys2Proof.Machine
end

