-- ==== Sys2Proof/Laws/PerInstr.lean ====
section
/-! SUPPORT. The lemmas made one per constructor of Instr: an instruction's word lies in its own row of the opcode map
(spec/30_encoding.md R75). -/

namespace Sys2Proof.Laws.OwnRow

/-- The word of the instruction has its row's bits under its row's mask. -/
def Statement (i : Instr) : Prop := encode i &&& rowMask i = rowMatch i

theorem cls : Statement (.cls) := rfl
theorem ret : Statement (.ret) := rfl
theorem jp (nnn : Addr12) : Statement (.jp nnn) := formNNN_and_category _ _
theorem call (nnn : Addr12) : Statement (.call nnn) := formNNN_and_category _ _
theorem seImm (x : Reg) (nn : Byte) : Statement (.seImm x nn) := formXNN_and_category _ _ _
theorem sneImm (x : Reg) (nn : Byte) : Statement (.sneImm x nn) := formXNN_and_category _ _ _
theorem seReg (x y : Reg) : Statement (.seReg x y) := formXYN_and_low_nibble _ _ _ _
theorem ldImm (x : Reg) (nn : Byte) : Statement (.ldImm x nn) := formXNN_and_category _ _ _
theorem addImm (x : Reg) (nn : Byte) : Statement (.addImm x nn) := formXNN_and_category _ _ _
theorem ldReg (x y : Reg) : Statement (.ldReg x y) := formXYN_and_low_nibble _ _ _ _
theorem orReg (x y : Reg) : Statement (.orReg x y) := formXYN_and_low_nibble _ _ _ _
theorem andReg (x y : Reg) : Statement (.andReg x y) := formXYN_and_low_nibble _ _ _ _
theorem xorReg (x y : Reg) : Statement (.xorReg x y) := formXYN_and_low_nibble _ _ _ _
theorem addReg (x y : Reg) : Statement (.addReg x y) := formXYN_and_low_nibble _ _ _ _
theorem sub (x y : Reg) : Statement (.sub x y) := formXYN_and_low_nibble _ _ _ _
theorem shr (x y : Reg) : Statement (.shr x y) := formXYN_and_low_nibble _ _ _ _
theorem subn (x y : Reg) : Statement (.subn x y) := formXYN_and_low_nibble _ _ _ _
theorem shl (x y : Reg) : Statement (.shl x y) := formXYN_and_low_nibble _ _ _ _
theorem sneReg (x y : Reg) : Statement (.sneReg x y) := formXYN_and_low_nibble _ _ _ _
theorem ldI (nnn : Addr12) : Statement (.ldI nnn) := formNNN_and_category _ _
theorem jpV0 (x : Reg) (nnn : Addr12) : Statement (.jpV0 x nnn) := formNNN_and_category _ _
theorem rnd (x : Reg) (nn : Byte) : Statement (.rnd x nn) := formXNN_and_category _ _ _
theorem drw (x y : Reg) (n : Nibble) : Statement (.drw x y n) := formXYN_and_category _ _ _ _
theorem skp (x : Reg) : Statement (.skp x) := formXNN_and_low_byte _ _ _
theorem sknp (x : Reg) : Statement (.sknp x) := formXNN_and_low_byte _ _ _
theorem ldVxDt (x : Reg) : Statement (.ldVxDt x) := formXNN_and_low_byte _ _ _
theorem ldVxK (x : Reg) : Statement (.ldVxK x) := formXNN_and_low_byte _ _ _
theorem ldDtVx (x : Reg) : Statement (.ldDtVx x) := formXNN_and_low_byte _ _ _
theorem ldStVx (x : Reg) : Statement (.ldStVx x) := formXNN_and_low_byte _ _ _
theorem addI (x : Reg) : Statement (.addI x) := formXNN_and_low_byte _ _ _
theorem ldF (x : Reg) : Statement (.ldF x) := formXNN_and_low_byte _ _ _
theorem ldB (x : Reg) : Statement (.ldB x) := formXNN_and_low_byte _ _ _
theorem stRegs (x : Reg) : Statement (.stRegs x) := formXNN_and_low_byte _ _ _
theorem ldRegs (x : Reg) : Statement (.ldRegs x) := formXNN_and_low_byte _ _ _

end Sys2Proof.Laws.OwnRow
end

