-- ==== Sys2Proof/Laws/Step.lean ====
section
/-! SUPPORT. Everything a step can do, said once: the inversion of `step`, of the machine's own turn and of the
instruction step (spec/45_scheduler_and_host.md R200, R201). -/

namespace Sys2Proof.Machine

variable {s t : State}

/-- A step is a host event whose guard holds, or the machine's own turn with the host's list as it was or less one
`wait`. -/
theorem step_cases (h : step s = .next t) :
    (∃ e rest, s.host = e :: rest ∧ e.enabled s = true ∧ t = e.perform { s with host := rest } ∧ e ≠ .wait) ∨
      ∃ hs, (hs = s.host ∨ s.host = .wait :: hs) ∧ machineTurn { s with host := hs } = .next t := by
  unfold step turn at h
  split at h
  · next hh => exact .inr ⟨s.host, .inl rfl, h⟩
  · next rest hh => exact .inr ⟨rest, .inr hh, h⟩
  · next e rest hw hh =>
    split at h
    · next he => cases h; exact .inl ⟨e, rest, hh, he, rfl, fun hew => hw hew⟩
    · exact .inr ⟨s.host, .inl rfl, h⟩

/-- The machine's own turn: a frame tick, an instruction step, or nothing where it is not Running. -/
theorem machineTurn_cases (h : machineTurn s = .next t) :
    (s.run = .running ∧ s.rem = 0 ∧ t = frameTick s) ∨ (s.run = .running ∧ s.rem ≠ 0 ∧ instrStep s = .next t) ∨
      (s.run ≠ .running ∧ t = s) := by
  unfold machineTurn at h
  split at h
  · next hr =>
    split at h
    · next h0 => cases h; exact .inl ⟨hr, h0, rfl⟩
    · next h0 => exact .inr (.inl ⟨hr, h0, h⟩)
  · next hr => cases h; exact .inr (.inr ⟨by simp [hr], rfl⟩)
  · next k p hr =>
    split at h
    · cases h
    · cases h; exact .inr (.inr ⟨by simp [hr], rfl⟩)

/-- An instruction step: a fetch fault, an undefined word, or the decoded instruction's execute phase and the end of
the batch. -/
theorem instrStep_cases (h : instrStep s = .next t) :
    (4096 ≤ s.pc.toNat + 1 ∧ t = { s with rem := s.rem - 1 }.raiseAt .outOfBoundsAccess s.pc) ∨
      (s.pc.toNat + 1 < 4096 ∧ (∃ e, decode s.fetchBytes = .error e) ∧ t = s.fetched.raise .illegalInstruction) ∨
        ∃ i rest u, s.pc.toNat + 1 < 4096 ∧ decode s.fetchBytes = .ok (i, rest) ∧ exec i s.fetched = .next u ∧
          t = u.endOfBatch := by
  unfold instrStep at h
  split at h
  · next hp => cases h; exact .inl ⟨hp, rfl⟩
  · next hp =>
    split at h
    · next e he => cases h; exact .inr (.inl ⟨by omega, ⟨e, he⟩, rfl⟩)
    · next i rest hd =>
      split at h
      · next u hu => cases h; exact .inr (.inr ⟨i, rest, u, by omega, hd, hu, rfl⟩)
      · cases h
      · cases h

/-- With a silent host a step is the machine's own turn. -/
theorem step_of_silent (h : s.host = []) : step s = machineTurn s := by
  simp [step, turn, h]

/-- A host event whose guard fails waits: the step is the machine's own turn (log entry 5). -/
theorem step_of_pending {e : HostEvent} {rest : List HostEvent} (h : s.host = e :: rest) (he : e.enabled s = false) :
    step s = machineTurn s := by
  cases e <;> simp_all [step, turn, HostEvent.enabled]

/-- A host event whose guard holds happens (R200). -/
theorem step_of_enabled {e : HostEvent} {rest : List HostEvent} (h : s.host = e :: rest) (hw : e ≠ .wait)
    (he : e.enabled s = true) : step s = .next (e.perform { s with host := rest }) := by
  cases e <;> simp_all [step, turn]

/-- Inside a batch a silent host leaves the instruction step (R200). -/
theorem step_in_batch (hh : s.host = []) (hr : s.run = .running) (h0 : s.rem ≠ 0) : step s = instrStep s := by
  simp [step_of_silent hh, machineTurn, hr, h0]

/-- Between frames a silent host leaves the frame tick (R200, R206). -/
theorem step_between_frames (hh : s.host = []) (hr : s.run = .running) (h0 : s.rem = 0) :
    step s = .next (frameTick s) := by
  simp [step_of_silent hh, machineTurn, hr, h0]

/-- The bytes fetched, decoded as one word (R53, R70). -/
theorem decode_fetchBytes (s : State) :
    decode s.fetchBytes = (decodeWord (wordOfBytes (s.byteAt s.pc.toNat) (s.byteAt (s.pc.toNat + 1)))).map
      (fun i => (i, [])) := rfl

/-- A run of no steps. -/
theorem run_zero (s : State) : Sys2Proof.core.run 0 s = .next s := rfl

/-- Runs of any core: a first step to a next state goes on from there. -/
theorem core_run_of_next (M : Host.Core) (n : Nat) (s t : M.State) (h : M.step s = .next t) :
    M.run (n + 1) s = M.run n t := by
  simp [Host.Core.run, h]

/-- Runs of any core: one that answers a next state took a first step that did. -/
theorem core_run_next (M : Host.Core) (n : Nat) (s u : M.State) (h : M.run (n + 1) s = .next u) :
    ∃ t, M.step s = .next t ∧ M.run n t = .next u := by
  cases hs : M.step s with
  | next t => exact ⟨t, rfl, by rwa [core_run_of_next M n s t hs] at h⟩
  | fault f => simp [Host.Core.run, hs] at h
  | refused r => simp [Host.Core.run, hs] at h

/-- A run whose first step answers a next state goes on from there. -/
theorem run_succ_of_next (n : Nat) (h : step s = .next t) : Sys2Proof.core.run (n + 1) s = Sys2Proof.core.run n t :=
  core_run_of_next Sys2Proof.core n s t h

/-- A run that answers a next state took a first step that did. -/
theorem run_succ_next {n : Nat} {u : State} (h : Sys2Proof.core.run (n + 1) s = .next u) :
    ∃ t, step s = .next t ∧ Sys2Proof.core.run n t = .next u :=
  core_run_next Sys2Proof.core n s u h

/-- What a program load leaves outside memory is as R260 says; its memory is canonical when the ROM fits. -/
theorem loadProgram_wf (s : State) (rom : List Byte) (cfg : Cfg) (h : rom.length ≤ 3584) :
    Memory.wf (s.loadProgram rom cfg).background (s.loadProgram rom cfg).mem :=
  storeBytes_keeps_wf rom _ 0x200 (by omega) ⟨List.Pairwise.nil, by simp⟩

end Sys2Proof.Machine
end

