-- ==== Sys2Proof/Tests/Slice0.lean ====
section
/-! SUPPORT. Tests. Expected results come from spec/95_test_vectors.md (the V- and E- numbers in the docstrings) or, for
decoding, from the patterns of spec/30_encoding.md R75; the last sections give each statement's hypotheses a witness. -/

namespace Sys2Proof.Tests
open Sys2Proof Sys2Proof.Machine

/-! ### Helpers -/

/-- `p` holds of the next state. -/
def nextIs (r : Result) (p : State → Bool) : Bool :=
  match r with
  | .next t => p t
  | .fault _ => false
  | .refused _ => false

/-- `p` holds after one step that runs the word `w` from `s`. -/
def runs (s : State) (w : Nat) (p : State → Bool) : Bool := nextIs (step (s.withFetchWord 16 w)) p

/-- Power-on with these registers, V0 first. -/
def withRegs (l : List Byte) : State := { State.reset with v := Vector.ofFn fun r : Fin 16 => l.getD r.val 0 }

/-- V1, V2 and VF set. -/
def regs12F (a b f : Byte) : State := withRegs ([0, a, b] ++ List.replicate 12 0 ++ [f])

/-- One register set. -/
def reg1 (r : Reg) (a : Byte) : State := State.reset.setReg r a

/-- `legacy_shift` on. -/
def legacyShifting (s : State) : State := { s with cfg := { s.cfg with legacyShift := true } }

/-- `legacy_store_load_advances_index` on. -/
def legacyAdvancing (s : State) : State := { s with cfg := { s.cfg with legacyStoreLoadAdvancesIndex := true } }

/-- I set. -/
def at' (s : State) (i : Word) : State := { s with index := i }

/-- Running, `n` steps left in the batch. -/
def inBatch (s : State) (n : Nat) : State := { s with run := .running, rem := n }

/-- Halted with a report. -/
def haltedAt (k : ErrorKind) (p : Word) (t : State) : Bool := decide (t.run = .halted k p)

/-- The word is refused by the decoder. -/
def undefinedWord (w : Word) : Bool :=
  match decodeWord w with
  | .ok _ => false
  | .error _ => true

/-! ### Well-formedness: the one check (R72), refused -/

theorem test_wellFormed_refuses_a_split_overlap : (Instr.jpV0 3 0x234#12).wellFormed = false := by decide
theorem test_wellFormed_accepts_the_overlap : (Instr.jpV0 2 0x234#12).wellFormed = true := by decide

/-! ### Decoding: words written out from R75's patterns -/

theorem test_decode_flow :
    decodeWord 0x00EE#16 = .ok .ret ∧ decodeWord 0x1ABC#16 = .ok (.jp 0xABC#12) ∧
    decodeWord 0x2ABC#16 = .ok (.call 0xABC#12) ∧ decodeWord 0xB234#16 = .ok (.jpV0 2 0x234#12) ∧
    decodeWord 0x3A2B#16 = .ok (.seImm 10 0x2B#8) ∧ decodeWord 0x4A2B#16 = .ok (.sneImm 10 0x2B#8) ∧
    decodeWord 0x5A20#16 = .ok (.seReg 10 2) ∧ decodeWord 0x9A20#16 = .ok (.sneReg 10 2) := by decide
theorem test_decode_alu_immediate :
    decodeWord 0x6A2B#16 = .ok (.ldImm 10 0x2B#8) ∧ decodeWord 0x7A2B#16 = .ok (.addImm 10 0x2B#8) ∧
    decodeWord 0xCA2B#16 = .ok (.rnd 10 0x2B#8) := by decide
theorem test_decode_alu_registers :
    decodeWord 0x8A20#16 = .ok (.ldReg 10 2) ∧ decodeWord 0x8A21#16 = .ok (.orReg 10 2) ∧
    decodeWord 0x8A22#16 = .ok (.andReg 10 2) ∧ decodeWord 0x8A23#16 = .ok (.xorReg 10 2) ∧
    decodeWord 0x8A24#16 = .ok (.addReg 10 2) ∧ decodeWord 0x8A25#16 = .ok (.sub 10 2) ∧
    decodeWord 0x8A26#16 = .ok (.shr 10 2) ∧ decodeWord 0x8A27#16 = .ok (.subn 10 2) ∧
    decodeWord 0x8A2E#16 = .ok (.shl 10 2) := by decide
theorem test_decode_index :
    decodeWord 0xAABC#16 = .ok (.ldI 0xABC#12) ∧ decodeWord 0xFA1E#16 = .ok (.addI 10) ∧
    decodeWord 0xFA29#16 = .ok (.ldF 10) ∧ decodeWord 0xFA33#16 = .ok (.ldB 10) ∧
    decodeWord 0xFA55#16 = .ok (.stRegs 10) ∧ decodeWord 0xFA65#16 = .ok (.ldRegs 10) := by decide
theorem test_decode_display :
    decodeWord 0x00E0#16 = .ok .cls ∧ decodeWord 0xDA25#16 = .ok (.drw 10 2 0x5#4) := by decide
theorem test_decode_keys_timers :
    decodeWord 0xEA9E#16 = .ok (.skp 10) ∧ decodeWord 0xEAA1#16 = .ok (.sknp 10) ∧
    decodeWord 0xFA07#16 = .ok (.ldVxDt 10) ∧ decodeWord 0xFA0A#16 = .ok (.ldVxK 10) ∧
    decodeWord 0xFA15#16 = .ok (.ldDtVx 10) ∧ decodeWord 0xFA18#16 = .ok (.ldStVx 10) := by decide

/-- V-F5: the first byte is the high byte. -/
theorem test_decode_byte_order : decode [0x12, 0x34, 0x56] = .ok (.jp 0x234#12, [0x56]) := by decide

/-- V-U1, V-U2, V-U3. -/
theorem test_decode_undefined_0_5_9 :
    [0x0000#16, 0x00E1#16, 0x00EF#16, 0x00FE#16, 0x0123#16, 0x0FFF#16, 0x5121#16, 0x512F#16, 0x9121#16].all undefinedWord = true := by decide
/-- V-U4. -/
theorem test_decode_undefined_8 :
    [0x8128#16, 0x8129#16, 0x812A#16, 0x812B#16, 0x812C#16, 0x812D#16, 0x812F#16].all undefinedWord = true := by decide
/-- V-U5. -/
theorem test_decode_undefined_E_F :
    [0xE100#16, 0xE19F#16, 0xE1A0#16, 0xF100#16, 0xF1FF#16, 0xF175#16, 0xF185#16, 0xF130#16].all undefinedWord = true := by decide

/-! ### Flow control -/

/-- V-J1. -/
theorem test_jp : runs State.reset 0x1234 (fun t => t.pc == 0x234) = true := by decide
/-- V-C2. -/
theorem test_call_fills_the_stack :
    runs { State.reset with stack := List.replicate 15 0x123 } 0x2300
      (fun t => t.stack == List.replicate 15 0x123 ++ [0x202] && t.pc == 0x300) = true := by decide
/-- V-C3. -/
theorem test_call_overflow :
    runs { State.reset with stack := List.replicate 16 0x123 } 0x2300
      (fun t => haltedAt .stackOverflow 0x200 t && t.pc == 0x202 && t.stack.length == 16) = true := by decide
/-- V-R3. -/
theorem test_ret_last_in_first_out :
    runs { State.reset with stack := [0x202, 0x306] } 0x00EE (fun t => t.pc == 0x306 && t.stack == [0x202]) = true := by
  decide
/-- V-R2, V-U6. -/
theorem test_ret_underflow :
    runs State.reset 0x00EE (fun t => haltedAt .stackUnderflow 0x200 t && t.pc == 0x202) = true := by decide
/-- V-B1. -/
theorem test_jpV0 : runs (withRegs [0x01, 0, 0x10]) 0xB234 (fun t => t.pc == 0x235) = true := by decide
/-- V-B2. -/
theorem test_jpV0_legacy :
    runs { withRegs [0x01, 0, 0x10] with cfg := { defaultCfg with legacyJumpWithVx := true } } 0xB234
      (fun t => t.pc == 0x244) = true := by decide
/-- V-K1, V-K2. -/
theorem test_seImm :
    runs (reg1 10 0x55) 0x3A55 (fun t => t.pc == 0x204) = true ∧
    runs (reg1 10 0x54) 0x3A55 (fun t => t.pc == 0x202) = true := by decide
/-- V-K3, V-K4. -/
theorem test_sneImm :
    runs (reg1 10 0x55) 0x4A55 (fun t => t.pc == 0x202) = true ∧
    runs (reg1 10 0x54) 0x4A55 (fun t => t.pc == 0x204) = true := by decide
/-- V-K6, V-K7. -/
theorem test_seReg :
    runs (regs12F 7 7 0) 0x5120 (fun t => t.pc == 0x204) = true ∧
    runs (regs12F 7 8 0) 0x5120 (fun t => t.pc == 0x202) = true := by decide
/-- V-K9, V-K10. -/
theorem test_sneReg :
    runs (regs12F 7 8 0) 0x9120 (fun t => t.pc == 0x204) = true ∧
    runs (regs12F 7 7 0) 0x9120 (fun t => t.pc == 0x202) = true := by decide

/-! ### Registers and ALU -/

/-- V-A2. -/
theorem test_ldImm_vf : runs State.reset 0x6F07 (fun t => t.reg 15 == 0x07) = true := by decide
/-- V-A3. -/
theorem test_addImm_wraps_without_a_flag :
    runs (reg1 10 0xFF) 0x7A02 (fun t => t.reg 10 == 0x01 && t.reg 15 == 0x00) = true := by decide
/-- V-A5. -/
theorem test_ldReg : runs (regs12F 0x11 0x22 9) 0x8120 (fun t => t.reg 1 == 0x22 && t.reg 15 == 9) = true := by decide
/-- V-A6. -/
theorem test_orReg : runs (regs12F 0xC8 0x64 9) 0x8121 (fun t => t.reg 1 == 0xEC && t.reg 15 == 9) = true := by decide
/-- V-A7. -/
theorem test_andReg : runs (regs12F 0xCC 0xAA 9) 0x8122 (fun t => t.reg 1 == 0x88 && t.reg 15 == 9) = true := by decide
/-- V-A8. -/
theorem test_xorReg : runs (regs12F 0xCC 0xAA 9) 0x8123 (fun t => t.reg 1 == 0x66 && t.reg 15 == 9) = true := by decide
/-- V-A11, V-A12. -/
theorem test_addReg_carry :
    runs (regs12F 0x7F 0x80 9) 0x8124 (fun t => t.reg 1 == 0xFF && t.reg 15 == 0) = true ∧
    runs (regs12F 0x80 0x80 9) 0x8124 (fun t => t.reg 1 == 0x00 && t.reg 15 == 1) = true := by decide
/-- V-A15: the flag wins. -/
theorem test_addReg_into_vf : runs (regs12F 0xFF 0 7) 0x8F14 (fun t => t.reg 15 == 1 && t.reg 1 == 0xFF) = true := by
  decide
/-- V-A18, V-A19. -/
theorem test_sub_borrow :
    runs (regs12F 3 5 9) 0x8125 (fun t => t.reg 1 == 0xFE && t.reg 15 == 0) = true ∧
    runs (regs12F 5 5 9) 0x8125 (fun t => t.reg 1 == 0x00 && t.reg 15 == 1) = true := by decide
/-- V-A22, V-A23. -/
theorem test_subn_borrow :
    runs (regs12F 3 5 9) 0x8127 (fun t => t.reg 1 == 0x02 && t.reg 15 == 1) = true ∧
    runs (regs12F 5 3 9) 0x8127 (fun t => t.reg 1 == 0xFE && t.reg 15 == 0) = true := by decide
/-- V-A25. -/
theorem test_shr : runs (regs12F 5 8 9) 0x8126 (fun t => t.reg 1 == 2 && t.reg 15 == 1 && t.reg 2 == 8) = true := by
  decide
/-- V-A26. -/
theorem test_shr_legacy :
    runs (legacyShifting (regs12F 5 8 9)) 0x8126 (fun t => t.reg 1 == 4 && t.reg 15 == 0 && t.reg 2 == 8) = true := by
  decide
/-- V-A31, its first value. -/
theorem test_shl : runs (regs12F 0x81 0 9) 0x812E (fun t => t.reg 1 == 0x02 && t.reg 15 == 1) = true := by decide
/-- V-A32. -/
theorem test_shl_legacy :
    runs (legacyShifting (regs12F 1 0xC0 9)) 0x812E (fun t => t.reg 1 == 0x80 && t.reg 15 == 1 && t.reg 2 == 0xC0) =
      true := by decide
/-- V-A35, and the byte is consumed. -/
theorem test_rnd_zero_mask : ∃ t, exec (.rnd 1 0) State.reset = .next t ∧ t.reg 1 = 0 ∧ t.randDraws = 1 :=
  ⟨_, rfl, by rw [reg_setReg]; simp, rfl⟩

/-! ### Index register and memory -/

/-- V-I1. -/
theorem test_ldI : runs State.reset 0xAFFF (fun t => t.index == 0x0FFF) = true := by decide
/-- V-I10: the old VF is the addend. -/
theorem test_addI_vf :
    runs (at' (reg1 15 1) 0x0FFF) 0xFF1E (fun t => t.index == 0x1000 && t.reg 15 == 1) = true := by decide
/-- V-I12. -/
theorem test_addI_overflow :
    runs (at' (regs12F 1 0 9) 0xFFFF) 0xF11E
      (fun t => haltedAt .outOfBoundsAccess 0x200 t && t.index == 0xFFFF && t.reg 15 == 9) = true := by decide
/-- V-I14. -/
theorem test_ldF : runs (reg1 0 0x1A) 0xF029 (fun t => t.index == 0x0082) = true := by decide
/-- V-I15, the value 9C. -/
theorem test_ldB :
    runs (at' (reg1 2 0x9C) 0x300) 0xF233
      (fun t => t.byteAt 0x300 == 1 && t.byteAt 0x301 == 5 && t.byteAt 0x302 == 6 && t.index == 0x300) = true := by decide
/-- V-I17. -/
theorem test_ldB_past_the_end :
    runs (at' (reg1 2 0xFF) 0xFFE) 0xF233 (fun t => haltedAt .outOfBoundsAccess 0x200 t && t.byteAt 0xFFE == 0) = true := by
  decide
/-- V-I20 under the legacy advance. -/
theorem test_stRegs :
    runs (legacyAdvancing (at' (withRegs [0x11, 0x22, 0x33, 0x44, 0x55]) 0x300)) 0xF355
      (fun t => t.byteAt 0x300 == 0x11 && t.byteAt 0x303 == 0x44 && t.byteAt 0x304 == 0 && t.index == 0x304) = true := by
  decide
/-- V-I23. -/
theorem test_stRegs_advance_past_the_end :
    runs (legacyAdvancing (at' (reg1 0 0xAB) 0xFF0)) 0xFF55
      (fun t => haltedAt .outOfBoundsAccess 0x200 t && t.byteAt 0xFF0 == 0) = true := by decide
/-- V-I25, with glyph 0 as the data. -/
theorem test_ldRegs :
    runs (at' (withRegs [0, 0, 0, 7]) 0x50) 0xF265
      (fun t => t.reg 0 == 0xF0 && t.reg 1 == 0x90 && t.reg 2 == 0x90 && t.reg 3 == 7 && t.index == 0x50) = true := by
  decide
/-- V-I27. -/
theorem test_ldRegs_advance_past_the_end :
    runs (legacyAdvancing (at' (reg1 0 5) 0xFFF)) 0xF065
      (fun t => haltedAt .outOfBoundsAccess 0x200 t && t.reg 0 == 5) = true := by decide

/-! ### Display -/

/-- V-D14. -/
theorem test_cls :
    runs { reg1 15 9 with fb := Vector.replicate 32 0xFF#64 } 0x00E0
      (fun t => t.fb == Vector.replicate 32 0 && t.reg 15 == 9 && t.signals == []) = true := by decide
/-- V-D1, row by row: bit x of a row is column x. -/
theorem test_drw_glyph :
    runs (at' State.reset 0x50) 0xD015
      (fun t => t.fb[0] == 0xF#64 && t.fb[1] == 0x9#64 && t.fb[4] == 0xF#64 && t.fb[5] == 0 && t.reg 15 == 0 &&
        t.signals == [.render]) = true := by decide
/-- V-D15: clipped at both edges. -/
theorem test_drw_clips :
    runs (at' (reg1 0 0x3E) 0x50) 0xD005
      (fun t => t.fb[30] == 0xC000000000000000#64 && t.fb[31] == 0x4000000000000000#64 && t.fb[0] == 0 &&
        t.reg 15 == 0) = true := by decide

/-! ### Keys and timers -/

/-- V-K12, V-K13. -/
theorem test_skp :
    runs { reg1 4 0x0A with key := 0x0400#16 } 0xE49E (fun t => t.pc == 0x204) = true ∧
    runs { reg1 4 0x0A with key := 0xFBFF#16 } 0xE49E (fun t => t.pc == 0x202) = true := by decide
/-- V-K17. -/
theorem test_skp_bad_key :
    runs { reg1 4 0x1A with params := { defaultParams with keyIndexPolicy := .fault } } 0xE49E
      (fun t => haltedAt .badKeyIndex 0x200 t && t.pc == 0x202) = true := by decide
/-- V-K14, V-K15. -/
theorem test_sknp :
    runs { reg1 4 0x0A with key := 0xFBFF#16 } 0xE4A1 (fun t => t.pc == 0x204) = true ∧
    runs { reg1 4 0x0A with key := 0x0400#16 } 0xE4A1 (fun t => t.pc == 0x202) = true := by decide
/-- V-K5. -/
theorem test_ldVxK_waits : runs (reg1 3 0x11) 0xF30A (fun t => t.pc == 0x200 && t.reg 3 == 0x11) = true := by decide
/-- V-K20, the policy `lowest`. -/
theorem test_ldVxK_lowest :
    runs { State.reset with key := 0x0208#16, params := { defaultParams with fx0aKeyChoice := .lowest } } 0xF30A
      (fun t => t.reg 3 == 3 && t.pc == 0x202) = true := by decide
/-- V-T5. -/
theorem test_ldVxDt : runs { State.reset with dt := 0x1E } 0xF207 (fun t => t.reg 2 == 0x1E && t.dt == 0x1E) = true := by
  decide
/-- V-T6. -/
theorem test_ldDtVx : runs (reg1 2 0x3C) 0xF215 (fun t => t.dt == 0x3C && t.st == 0) = true := by decide
/-- V-T7. -/
theorem test_ldStVx : runs (reg1 2 2) 0xF218 (fun t => t.st == 2 && t.soundOn && t.dt == 0) = true := by decide

/-! ### Scheduler and host -/

/-- V-T1 to V-T3. -/
theorem test_tick :
    nextIs (step (inBatch { State.reset with dt := 0, st := 2, keyIn := 0x80#16 } 0))
      (fun t => t.dt == 0 && t.st == 1 && t.key == 0x80#16 && t.rem == 11 && t.signals == []) = true := by decide
/-- V-S2, V-S3. -/
theorem test_ipf :
    [1, 59, 60, 119, 120, 600, 700, 720].map
      (fun n => ({ State.reset with cfg := { defaultCfg with instructionsPerSecond := n } }).ipf) =
      [0, 0, 1, 1, 2, 10, 11, 12] := by decide
/-- V-S8: from power-on, `Start`, tick, step. -/
theorem test_start_from_power_on :
    nextIs (Sys2Proof.core.run 3 { State.reset with host := [.start] })
      (fun t => haltedAt .illegalInstruction 0x200 t && t.pc == 0x202) = true := by decide
/-- V-F2, second step. -/
theorem test_fetch_past_the_end :
    nextIs (step (inBatch { State.reset with pc := 0xFFF } 5))
      (fun t => haltedAt .outOfBoundsAccess 0xFFF t && t.pc == 0xFFF && t.rem == 4) = true := by decide
/-- E7's first instruction, from the load on. -/
theorem test_load_and_first_instruction :
    nextIs (Sys2Proof.core.run 4 { State.reset with host := [.reset [0x60, 0x0A, 0x61, 0x05] defaultCfg, .start] })
      (fun t => t.reg 0 == 0x0A && t.pc == 0x202 && t.byteAt 0x203 == 0x05 && t.rem == 10) = true := by decide
/-- R207: the step that ends the batch emits the frame's render signal, whatever the instruction. -/
theorem test_end_of_batch :
    nextIs (step { State.reset.withFetchWord 16 0x1200 with rem := 1 })
      (fun t => t.rem == 0 && t.signals == [.render]) = true := by decide

/-! ### Witnesses: for each statement's hypotheses, a state and operands that meet them, clause by clause

Encodings -/

/-- The words `Encodes` speaks of in the statements: each value has the bits its mask selects. -/
theorem witness_Encodes :
    [(0xF000#16, 0x1000#16), (0xF000#16, 0x2000#16), (0xFFFF#16, 0x00EE#16), (0xF000#16, 0xB000#16),
      (0xF000#16, 0x3000#16), (0xF000#16, 0x4000#16), (0xF00F#16, 0x5000#16), (0xF00F#16, 0x9000#16),
      (0xF000#16, 0x6000#16), (0xF000#16, 0x7000#16), (0xF00F#16, 0x8000#16), (0xF00F#16, 0x8001#16),
      (0xF00F#16, 0x8002#16), (0xF00F#16, 0x8003#16), (0xF00F#16, 0x8004#16), (0xF00F#16, 0x8005#16),
      (0xF00F#16, 0x8007#16), (0xF00F#16, 0x8006#16), (0xF00F#16, 0x800E#16), (0xF000#16, 0xC000#16),
      (0xF000#16, 0xA000#16), (0xF0FF#16, 0xF029#16), (0xF0FF#16, 0xF01E#16), (0xF0FF#16, 0xF033#16),
      (0xF0FF#16, 0xF055#16), (0xF0FF#16, 0xF065#16), (0xFFFF#16, 0x00E0#16), (0xF000#16, 0xD000#16),
      (0xF0FF#16, 0xE09E#16), (0xF0FF#16, 0xE0A1#16), (0xF0FF#16, 0xF00A#16), (0xF0FF#16, 0xF007#16),
      (0xF0FF#16, 0xF015#16), (0xF0FF#16, 0xF018#16)].all (fun p => p.2 &&& p.1 == p.2) = true := by decide
theorem witness_WordsDecodeByMaskAndMatch :
    decodeWord 0x8A24#16 = .ok (.addReg 10 2) ∧ 0x8A24#16 &&& rowMask (.addReg 0 0) = rowMatch (.addReg 0 0) := by decide
theorem witness_DecodeOfEncodeIsTheInstruction :
    (Instr.jpV0 15 0xFFF#12).wellFormed = true ∧ (Instr.jpV0 0 0x0FF#12).wellFormed = true := by decide
theorem witness_EncodeOfDecodeIsTheWord : decodeWord 0xBFFF#16 = .ok (.jpV0 15 0xFFF#12) := by decide

/-! Flow control -/

/-- A state with `n` return addresses. -/
def nested (n : Nat) : State := { State.reset with stack := List.replicate n 0x202 }

theorem witness_CallPushesTheAdvancedPc : (nested 15).stack.length < 16 ∧ (nested 16).stack.length = 16 := by decide
theorem witness_ReturnPopsIntoPc :
    (nested 1).stack = [] ++ [0x202#16] ∧ (nested 16).stack = (nested 15).stack ++ [0x202#16] ∧ (nested 0).stack = [] := by
  decide
theorem witness_ReturnUndoesCall : (nested 0).stack.length < 16 ∧ (nested 15).stack.length < 16 := by decide

/-! Registers and ALU -/

/-- The clause `x ≠ 15` of the statements on flags. -/
theorem witness_result_register_is_not_vf : (14 : Reg) ≠ 15 ∧ (0 : Reg) ≠ 15 := by decide
theorem witness_ShiftsMoveOneBitIntoVf :
    0x08 = (if (legacyShifting (regs12F 5 8 0)).cfg.legacyShift then ((legacyShifting (regs12F 5 8 0)).reg 2).toNat
      else ((legacyShifting (regs12F 5 8 0)).reg 1).toNat) ∧
    0x05 = (if (regs12F 5 8 0).cfg.legacyShift then ((regs12F 5 8 0).reg 2).toNat
      else ((regs12F 5 8 0).reg 1).toNat) := by decide
theorem witness_RandomByteIsMasked : (0x7F#8).getLsbD 7 = false ∧ (0xFE#8).getLsbD 0 = false := by decide
theorem witness_AluGroupTouchesRegistersOnly : (Instr.rnd 15 0).isAlu = true ∧ (Instr.ldImm 0 0).isAlu = true := by
  decide

/-! Index register and memory -/

theorem witness_AddToIndexStoresOrFaults :
    0xFFFF = (at' (reg1 1 1) 0xFFFE).index.toNat + ((at' (reg1 1 1) 0xFFFE).reg 1).toNat ∧
    0x10000 = (at' (reg1 1 1) 0xFFFF).index.toNat + ((at' (reg1 1 1) 0xFFFF).reg 1).toNat ∧
    0x0FFF = (at' (reg1 1 0) 0x0FFF).index.toNat + ((at' (reg1 1 0) 0x0FFF).reg 1).toNat ∧
    0x1000 = (at' (reg1 1 1) 0x0FFF).index.toNat + ((at' (reg1 1 1) 0x0FFF).reg 1).toNat := by decide
theorem witness_OnlyAddToIndexPassesTheEnd :
    ∃ t, (at' (reg1 1 1) 0x0FFF).index.toNat < 0x1000 ∧ exec (.addI 1) (at' (reg1 1 1) 0x0FFF) = .next t ∧
      0x1000 ≤ t.index.toNat := ⟨_, by decide, rfl, by decide⟩
theorem witness_DecimalDigitsAreStored :
    (at' State.reset 0xFFD).index.toNat + 2 < 4096 ∧ 4096 ≤ (at' State.reset 0xFFE).index.toNat + 2 := by decide

/-- The highest value FX55 and FX65 check, as the statements compute it. -/
def lastOf (s : State) (x : Reg) : Nat := s.index.toNat + x.val + (if s.cfg.legacyStoreLoadAdvancesIndex then 1 else 0)

/-- Both transfers, both settings, both sides of the boundary. -/
theorem witness_StoreRegistersAtIndex_LoadRegistersFromIndex :
    lastOf (at' State.reset 0xFF0) 15 = 4095 ∧ lastOf (at' State.reset 0xFF1) 15 = 4096 ∧
    lastOf (legacyAdvancing (at' State.reset 0xFEF)) 15 = 4095 ∧
    lastOf (legacyAdvancing (at' State.reset 0xFF0)) 15 = 4096 ∧
    lastOf (at' State.reset 0xFFF) 0 = 4095 ∧ lastOf (legacyAdvancing (at' State.reset 0xFFF)) 0 = 4096 := by decide
theorem witness_LoadBringsBackWhatStoreSaved :
    (at' State.reset 0xFF0).cfg.legacyStoreLoadAdvancesIndex = false ∧
    (at' State.reset 0xFF0).index.toNat + (15 : Reg).val < 4096 := by decide

/-- The legacy advance, the last register stored on the first byte of the next instruction; then the first register on
its second byte, X = 15, the store ending at 0xFFF; then the digits, the last on the first byte, the first on the
second. -/
theorem witness_NextFetchSeesTheStore :
    let s := { legacyAdvancing (at' State.reset 0xFFD) with pc := 0xFFE }
    let t := { at' State.reset 0xFF0 with pc := 0xFEF }
    let u := { at' State.reset 0xFFD with pc := 0xFFF }
    let w := { at' State.reset 0xFFD with pc := 0xFFC }
    (lastOf s 1 < 4096 ∧ (1 : Reg) ≤ 1 ∧ s.pc.toNat = s.index.toNat + (1 : Reg).val) ∧
    (lastOf t 15 < 4096 ∧ (0 : Reg) ≤ 15 ∧ t.pc.toNat + 1 = t.index.toNat + (0 : Reg).val) ∧
    (u.index.toNat + 2 < 4096 ∧ u.pc.toNat = u.index.toNat + 2) ∧
    (w.index.toNat + 2 < 4096 ∧ w.pc.toNat + 1 = w.index.toNat + 0) := by decide
/-- V-I30: F155 over the next instruction. -/
theorem test_stRegs_over_the_next_instruction :
    nextIs (exec (.stRegs 1) { at' (withRegs [0x6A, 0x55]) 0x208 with pc := 0x208 })
      (fun t => t.fetchBytes == [0x6A, 0x55]) = true := by decide

/-! Display -/

/-- Glyph 0 to be drawn at the top left, pixel (0,0) on. -/
def cornerOn : State := { at' State.reset 0x50 with fb := (Vector.replicate 32 0).set 0 1#64 }

/-- The screen all on. -/
def allOn : State := { at' State.reset 0x50 with fb := Vector.replicate 32 (BitVec.allOnes 64) }

theorem witness_DrawTogglesTheClippedSprite_no_rows :
    (0#4).toNat = 0 ∨ (at' State.reset 0xFFFF).index.toNat + (0#4).toNat - 1 < 4096 := by decide
theorem witness_DrawTogglesTheClippedSprite_last_byte : (at' State.reset 0xFF1).index.toNat + (15#4).toNat - 1 < 4096 := by
  decide
theorem witness_DrawTogglesTheClippedSprite_collides : cornerOn.Collides 0 0 5#4 :=
  ⟨0, 0, by constructor <;> decide, by decide, by decide⟩
theorem witness_DrawTogglesTheClippedSprite_no_collision : ¬(at' State.reset 0x50).Collides 0 0 5#4 := by
  rintro ⟨px, py, h, -, hp⟩
  have h2 := h.2
  simp [State.pixel, screenPixel, at', State.reset, h2] at hp
theorem witness_DrawOutsideMemoryHalts :
    1 ≤ (1#4).toNat ∧ 4096 ≤ (at' State.reset 0x1000).index.toNat + (1#4).toNat - 1 ∧
    1 ≤ (15#4).toNat ∧ 4096 ≤ (at' State.reset 0xFF2).index.toNat + (15#4).toNat - 1 := by decide
theorem witness_DrawingTwiceRestoresThePicture :
    ∃ t, exec (.drw 0 1 5#4) cornerOn = .next t ∧ cornerOn.index.toNat + (5#4).toNat - 1 < 4096 ∧
      (t.reg 0).toNat % 64 = (cornerOn.reg 0).toNat % 64 ∧ (t.reg 1).toNat % 32 = (cornerOn.reg 1).toNat % 32 ∧
      cornerOn.spriteBit 0 1 5#4 1 0 = true ∧ cornerOn.pixel 1 0 = false :=
  ⟨_, rfl, by decide, by decide, by decide, by decide, by decide⟩
theorem witness_DrawingTwiceRestoresThePicture_all_on :
    ∀ px py, OnScreen px py → allOn.spriteBit 0 1 5#4 px py = true → allOn.pixel px py = true := by
  rintro px py ⟨hx, hy⟩ -
  simp only [State.pixel, screenPixel, allOn, hy, dif_pos, Vector.getElem_replicate, BitVec.getLsbD_allOnes,
    decide_eq_true hx]

/-! Keys -/

/-- The key policy `fault`. -/
def strictKeys (s : State) : State := { s with params := { s.params with keyIndexPolicy := .fault } }

theorem witness_KeySkipsTestTheSnapshot :
    (reg1 4 0x1A).params.keyIndexPolicy = .mask4 ∧ ((strictKeys (reg1 4 15)).reg 4).toNat ≤ 15 ∧
    ((strictKeys (reg1 4 16)).params.keyIndexPolicy = .fault ∧ 15 < ((strictKeys (reg1 4 16)).reg 4).toNat) := by decide
theorem witness_WaitForKeyRewindsOrTakesAKey :
    State.reset.key = 0#16 ∧ { State.reset with key := 0x8000#16 }.key ≠ 0#16 ∧
    { State.reset with params := { defaultParams with fx0aKeyChoice := .lowest } }.params.fx0aKeyChoice = .lowest := by
  decide

/-! The execute phase as a whole -/

theorem witness_InstructionsWriteOnlyWhatTheMatrixLists : ∃ t, exec (.ldRegs 14) (at' State.reset 0x50) = .next t :=
  ⟨_, rfl⟩
theorem witness_ExecuteFaultsExactlyAsListed :
    Instr.executeFault (nested 16) (.call 0) = some .stackOverflow ∧ Instr.executeFault (nested 15) (.call 0) = none ∧
    Instr.executeFault State.reset .ret = some .stackUnderflow ∧
    Instr.executeFault (at' State.reset 0xFFF) (.drw 0 0 2#4) = some .outOfBoundsAccess ∧
    Instr.executeFault (at' State.reset 0xFFF) (.drw 0 0 1#4) = none ∧
    Instr.executeFault (at' State.reset 0xFFE) (.ldB 0) = some .outOfBoundsAccess ∧
    Instr.executeFault (legacyAdvancing (at' State.reset 0xFFF)) (.stRegs 0) = some .outOfBoundsAccess ∧
    Instr.executeFault (at' State.reset 0xFFF) (.ldRegs 0) = none ∧
    Instr.executeFault (at' (reg1 1 1) 0xFFFF) (.addI 1) = some .outOfBoundsAccess ∧
    Instr.executeFault (strictKeys (reg1 4 16)) (.sknp 4) = some .badKeyIndex := by decide

/-! Steps -/

/-- The word 6A55 in the last two bytes of memory and PC there, one step left in the batch (V-F4). -/
def lastWord : State := { State.reset with pc := 0xFFE, mem := [(0xFFE, 0x6A), (0xFFF, 0x55)], run := .running, rem := 1 }

theorem witness_StepRunsTheDecodedInstruction :
    lastWord.host = [] ∧ lastWord.run = .running ∧ 0 < lastWord.rem ∧ lastWord.pc.toNat + 1 < 4096 ∧
    decodeWord (lastWord.byteAt lastWord.pc.toNat ++ lastWord.byteAt (lastWord.pc.toNat + 1)) = .ok (.ldImm 10 0x55#8) := by
  decide
theorem witness_FetchPastTheEndHalts :
    let s := { lastWord with pc := 0xFFF }
    s.host = [] ∧ s.run = .running ∧ 0 < s.rem ∧ 0xFFF ≤ s.pc.toNat := by decide
theorem witness_UndefinedWordHalts :
    let s := { lastWord with mem := [] }
    s.host = [] ∧ s.run = .running ∧ 0 < s.rem ∧ s.pc.toNat + 1 < 4096 ∧
    decodeWord (s.byteAt s.pc.toNat ++ s.byteAt (s.pc.toNat + 1)) = .error (.undefinedEncoding 0#16) := by decide

/-- Running with the batch done, at `n` instructions per second. -/
def betweenAt (n : Nat) : State := { State.reset with run := .running, cfg := { defaultCfg with instructionsPerSecond := n } }

/-- Both the empty batch and the batch of one. -/
theorem witness_FrameTickCountsDownAndSamplesKeys :
    (betweenAt 59).host = [] ∧ (betweenAt 59).run = .running ∧ (betweenAt 59).rem = 0 ∧
    (betweenAt 59).cfg.instructionsPerSecond / 60 = 0 ∧ (betweenAt 60).rem = 0 ∧ (betweenAt 60).host = [] ∧
    (betweenAt 60).run = .running ∧ (betweenAt 60).cfg.instructionsPerSecond / 60 = 1 := by decide
theorem witness_EmptyBatchesTickTheTimersDown :
    (betweenAt 59).host = [] ∧ (betweenAt 59).run = .running ∧ (betweenAt 59).rem = 0 ∧
    (betweenAt 59).cfg.instructionsPerSecond < 60 := by decide

/-- A jump to itself at 0x200 (V-J2), three steps left. -/
def looping : State := { State.reset with mem := [(0x200, 0x12)], run := .running, rem := 3 }

/-- The whole batch, so that the last step emits the render signal. -/
theorem witness_BatchRunsExactlyItsSteps :
    looping.host = [] ∧ looping.run = .running ∧ 3 ≤ looping.rem ∧
    nextIs (Sys2Proof.core.run 3 looping) (fun t => decide (t.run = .running)) = true := by decide

/-- FX0A with X = 3 at 0x200, no key down. -/
def waiting : State := { State.reset with mem := [(0x200, 0xF3), (0x201, 0x0A)], run := .running, rem := 2 }

theorem witness_WaitForKeyNeverAdvancesWithoutAKey :
    waiting.host = [] ∧ waiting.run = .running ∧ waiting.key = 0#16 ∧ waiting.keyIn = 0#16 ∧
    waiting.pc.toNat + 1 < 4096 ∧
    decodeWord (waiting.byteAt waiting.pc.toNat ++ waiting.byteAt (waiting.pc.toNat + 1)) = .ok (.ldVxK 3) ∧
    nextIs (Sys2Proof.core.run 5 waiting) (fun t => decide (t.pc = 0x200)) = true := by decide

/-! The host -/

/-- A halted machine. -/
def halted : State := { State.reset with run := .halted .stackUnderflow 0x200 }

/-- `Start` in each scheduler state: `Idle`, inside a batch at its last step, between frames, `Halted`. -/
theorem witness_StartAndStopObeyTheirGuards_start :
    { State.reset with host := [.start] }.run = .idle ∧
    ({ inBatch State.reset 1 with host := [.start] }.run = .running ∧ 0 < { inBatch State.reset 1 with host := [.start] }.rem) ∧
    ({ betweenAt 60 with host := [.start] }.run = .running ∧ { betweenAt 60 with host := [.start] }.rem = 0) ∧
    { halted with host := [.start] }.run = .halted .stackUnderflow 0x200 := by decide
/-- `Stop` in each. -/
theorem witness_StartAndStopObeyTheirGuards_stop :
    { State.reset with host := [.stop] }.run = .idle ∧
    ({ inBatch State.reset 1 with host := [.stop] }.run = .running ∧ 0 < { inBatch State.reset 1 with host := [.stop] }.rem) ∧
    ({ betweenAt 60 with host := [.stop] }.run = .running ∧ { betweenAt 60 with host := [.stop] }.rem = 0) ∧
    { halted with host := [.stop] }.run = .halted .stackUnderflow 0x200 := by decide
theorem witness_KeySetterChangesTheInputLevelOnly :
    { looping with host := [.key 15 true, .wait] }.host = .key 15 true :: [.wait] := by decide
theorem witness_OversizeProgramIsRejected :
    let s := { nested 3 with run := .halted .stackUnderflow 0x200, host := [.reset (List.replicate 3585 0) defaultCfg] }
    (HostEvent.reset (List.replicate 3585 0) defaultCfg).enabled s = true ∧ 3584 < (List.replicate 3585 (0#8)).length :=
  ⟨rfl, by rw [List.length_replicate]; omega⟩

/-- A ROM of the full size, an empty one, and the three scheduler states a load can find. -/
theorem witness_ProgramLoadCreatesTheStateAnew :
    defaultCfg.legal = true ∧ { defaultCfg with instructionsPerSecond := 1 }.legal = true ∧
    (State.reset.run ≠ .running ∧ (RunState.halted .badKeyIndex 0x200) ≠ .running ∧
      ((betweenAt 60).run = .running ∧ (betweenAt 60).rem = 0)) ∧
    ([] : List Byte).length ≤ 3584 ∧ (List.replicate 3584 (0#8)).length ≤ 3584 ∧
    State.reset.params.memInit = .fill 0x00 := 
  ⟨by decide, by decide, by decide, by simp, by rw [List.length_replicate], by decide⟩
theorem witness_BootFetchesTheProgramsFirstBytes :
    let s := { State.reset with host := [.reset (0x60#8 :: 0x0A#8 :: List.replicate 3582 0) defaultCfg, .start] }
    s.run = .idle ∧ defaultCfg.legal = true ∧ (List.replicate 3582 (0#8)).length + 2 ≤ 3584 :=
  ⟨rfl, by decide, by rw [List.length_replicate]⟩

/-- Both outcomes of a step out of `Halted`, and the one with a silent host. -/
theorem witness_OnlyResetLeavesHalted :
    halted.run = .halted .stackUnderflow 0x200 ∧ halted.host = [] ∧
    nextIs (step { halted with host := [.start] }) (fun t => decide (t.run = .halted .stackUnderflow 0x200)) = true ∧
    nextIs (step { halted with host := [.reset [0x60, 0x0A] defaultCfg] }) (fun t => decide (t.run = .idle)) = true := by
  decide
theorem witness_OnlyStartLeavesIdle :
    State.reset.run = .idle ∧ nextIs (step State.reset) (fun t => decide (t.run = .idle)) = true ∧
    nextIs (step { State.reset with host := [.start] }) (fun t => decide (t.run = .running)) = true := by decide
theorem witness_ConfigurationIsConstantBetweenLoads_load :
    let s := { halted with host := [.reset [0x60] (betweenAt 60).cfg] }
    ∃ t, step s = .next t ∧ t.cfg = (betweenAt 60).cfg ∧ (betweenAt 60).cfg.legal = true := ⟨_, rfl, rfl, rfl⟩
theorem witness_ConfigurationIsConstantBetweenLoads_step : ∃ t, step looping = .next t ∧ t.cfg = looping.cfg :=
  ⟨_, rfl, rfl⟩
theorem witness_EveryStepKeepsTheInvariant_memory : Memory.wf looping.background looping.mem :=
  ⟨List.pairwise_singleton _ _, fun c hc => by rw [List.mem_singleton.1 hc]; exact ⟨by decide, by decide⟩⟩
theorem witness_EveryStepKeepsTheInvariant : Inv looping :=
  { memory := witness_EveryStepKeepsTheInvariant_memory
    stackDepth := Nat.zero_le _
    returnAddresses := fun _ h => absurd h List.not_mem_nil
    pcRange := by decide
    batch := by decide
    cfgLegal := rfl
    noLoadHalt := by intro _ h; cases h }
theorem witness_EveryStepKeepsTheInvariant_step : ∃ t, step looping = .next t := ⟨_, rfl⟩

end Sys2Proof.Tests
end

section
/-! SUPPORT. What the instructions with more than one way on can answer: one inversion lemma each. -/

namespace Sys2Proof.Machine

variable {s t : State}

/-- 2NNN halts on a full stack, and otherwise pushes the advanced PC and jumps (R101). -/
theorem exec_call_cases {nnn : Addr12} (h : exec (.call nnn) s = .next t) :
    (16 ≤ s.stack.length ∧ t = s.raise .stackOverflow) ∨
      (s.stack.length < 16 ∧ t = { s with stack := s.stack ++ [s.pc], pc := addrWord nnn }) := by
  change execCall nnn s = .next t at h
  by_cases hfull : 16 ≤ s.stack.length
  · rw [execCall, push_of_full s _ hfull] at h
    cases h; exact .inl ⟨hfull, rfl⟩
  · rw [execCall, push_of_lt s _ (by omega)] at h
    cases h; exact .inr ⟨by omega, rfl⟩

/-- 00EE halts on an empty stack, and otherwise pops the top into PC (R102). -/
theorem exec_ret_cases (h : exec .ret s = .next t) :
    (s.stack = [] ∧ t = s.raise .stackUnderflow) ∨
      ∃ rest a, s.stack = rest ++ [a] ∧ t = { s with stack := rest, pc := a } := by
  change execRet s = .next t at h
  rcases List.eq_nil_or_concat' s.stack with hnil | ⟨rest, a, htop⟩
  · rw [execRet, pop_of_nil s hnil] at h
    cases h; exact .inl ⟨hnil, rfl⟩
  · rw [execRet, pop_of_append s htop] at h
    cases h; exact .inr ⟨rest, a, htop, rfl⟩

/-- EX9E halts where V[X] selects no key, and otherwise skips if its key is pressed (R180, R186). -/
theorem exec_skp_cases {x : Reg} (h : exec (.skp x) s = .next t) :
    (s.keyNumber (s.reg x) = none ∧ t = s.raise .badKeyIndex) ∨
      ∃ k, s.keyNumber (s.reg x) = some k ∧ t = s.skipIf (s.pressed k) := by
  change execSkp x s = .next t at h
  unfold execSkp at h
  split at h
  · next k hk => cases h; exact .inr ⟨k, hk, rfl⟩
  · next hk => cases h; exact .inl ⟨hk, rfl⟩

/-- EXA1 halts where V[X] selects no key, and otherwise skips unless its key is pressed (R181, R186). -/
theorem exec_sknp_cases {x : Reg} (h : exec (.sknp x) s = .next t) :
    (s.keyNumber (s.reg x) = none ∧ t = s.raise .badKeyIndex) ∨
      ∃ k, s.keyNumber (s.reg x) = some k ∧ t = s.skipIf (!s.pressed k) := by
  change execSknp x s = .next t at h
  unfold execSknp at h
  split at h
  · next k hk => cases h; exact .inr ⟨k, hk, rfl⟩
  · next hk => cases h; exact .inl ⟨hk, rfl⟩

/-- FX0A goes back to itself with no key pressed, and otherwise stores the chosen key (R182). -/
theorem exec_ldVxK_cases {x : Reg} (h : exec (.ldVxK x) s = .next t) :
    (s.pressedKeys = [] ∧ t = s.setPc (s.pc - 2)) ∨
      ∃ k ks, s.pressedKeys = k :: ks ∧ t = (s.chooseKey k ks).2.setReg x (keyCode (s.chooseKey k ks).1) := by
  change execLdVxK x s = .next t at h
  unfold execLdVxK at h
  split at h
  · next hk => cases h; exact .inl ⟨hk, rfl⟩
  · next k ks hk => cases h; exact .inr ⟨k, ks, hk, rfl⟩

/-- FX1E halts on a sum above 16 bits, and otherwise stores it and sets its flag (R152). -/
theorem exec_addI_cases {x : Reg} (h : exec (.addI x) s = .next t) :
    (0xFFFF < s.index.toNat + (s.reg x).toNat ∧ t = s.raise .outOfBoundsAccess) ∨
      (s.index.toNat + (s.reg x).toNat ≤ 0xFFFF ∧
        t = (s.setIndex (BitVec.ofNat 16 (s.index.toNat + (s.reg x).toNat))).indexFlag
          (s.index.toNat + (s.reg x).toNat)) := by
  change execAddI x s = .next t at h
  simp only [execAddI] at h
  split at h
  · next hbig => cases h; exact .inl ⟨hbig, rfl⟩
  · next hfits => cases h; exact .inr ⟨by omega, rfl⟩

/-- An instruction behind an address check halts on a high address, and otherwise completes (R52, R151). -/
theorem guardAddress_next_cases {last : Nat} {u : State} (h : s.guardAddress last (.next u) = .next t) :
    (4096 ≤ last ∧ t = s.raise .outOfBoundsAccess) ∨ (last < 4096 ∧ t = u) :=
  (guardAddress_next s h).imp_right fun ⟨hlast, hu⟩ => ⟨hlast, (Host.Outcome.next.inj hu).symm⟩

/-- DXYN (R171, decision D11). -/
theorem exec_drw_cases {x y : Reg} {n : Nibble} (h : exec (.drw x y n) s = .next t) :
    (4096 ≤ s.spriteTop n ∧ t = s.raise .outOfBoundsAccess) ∨ (s.spriteTop n < 4096 ∧ t = s.drawSprite x y n) :=
  guardAddress_next_cases h

/-- FX33 (R154). -/
theorem exec_ldB_cases {x : Reg} (h : exec (.ldB x) s = .next t) :
    (4096 ≤ s.indexed 2 ∧ t = s.raise .outOfBoundsAccess) ∨
      (s.indexed 2 < 4096 ∧ t = s.storeBytes (s.indexed 0) (bcdDigits (s.reg x))) :=
  guardAddress_next_cases h

/-- FX55 (R155, R157). -/
theorem exec_stRegs_cases {x : Reg} (h : exec (.stRegs x) s = .next t) :
    (4096 ≤ s.transferTop x ∧ t = s.raise .outOfBoundsAccess) ∨
      (s.transferTop x < 4096 ∧
        t = (s.storeBytes (s.indexed 0) (s.regsThrough x)).setIndex (s.indexAfterTransfer x)) :=
  guardAddress_next_cases h

/-- FX65 (R156, R157). -/
theorem exec_ldRegs_cases {x : Reg} (h : exec (.ldRegs x) s = .next t) :
    (4096 ≤ s.transferTop x ∧ t = s.raise .outOfBoundsAccess) ∨
      (s.transferTop x < 4096 ∧ t = (s.loadRegs x (s.indexed 0)).setIndex (s.indexAfterTransfer x)) :=
  guardAddress_next_cases h

/-- The check of FX55 and FX65 covers the last byte they move (R157). -/
theorem indexed_le_transferTop (s : State) (x : Reg) : s.indexed x.val ≤ s.transferTop x := by
  unfold State.transferTop State.indexed
  split <;> omega

/-- A checked FX55 or FX65 leaves I at an address of memory (R157, decision D10). -/
theorem indexAfterTransfer_lt {x : Reg} (h : s.transferTop x < 4096) :
    (s.indexAfterTransfer x).toNat < 4096 := by
  unfold State.transferTop State.indexed at h
  unfold State.indexAfterTransfer State.indexed
  split at h
  · next hadv => rw [if_pos hadv, BitVec.toNat_ofNat]; omega
  · next hadv => rw [if_neg hadv]; omega

end Sys2Proof.Machine
end

section
/-! SUPPORT. Frames: what each operation on the state leaves alone, how frames compose, and the frame of each
instruction (spec/10_state.md R39). -/

namespace Sys2Proof.Machine

/-- Every part outside `ps` and every register outside `rs` is as before, and memory outside `ps` is the same list of
cells, not only the same to read. -/
structure Frame (ps : List Part) (rs : List Reg) (s t : State) : Prop where
  parts : KeepsAllBut ps s t
  regs : KeepsRegsBut rs s t
  cells : .mem ∉ ps → t.mem = s.mem

variable {s t u : State} {ps qs : List Part} {rs rs' : List Reg}

theorem Frame.mono (h : Frame ps rs s t) (hp : ps ⊆ qs) (hr : rs ⊆ rs') : Frame qs rs' s t where
  parts p hq := h.parts p fun hps => hq (hp hps)
  regs r hq := h.regs r fun hrs => hq (hr hrs)
  cells hq := h.cells fun hps => hq (hp hps)

theorem Part.same_trans {p : Part} (h : p.same s t) (h' : p.same t u) : p.same s u := by
  cases p with
  | mem => exact fun a => (h' a).trans (h a)
  | _ => exact Eq.trans h' h

theorem Frame.trans (h : Frame ps rs s t) (h' : Frame qs rs' t u) : Frame (ps ++ qs) (rs ++ rs') s u where
  parts p hp := by
    rw [List.mem_append, not_or] at hp
    exact Part.same_trans (h.parts p hp.1) (h'.parts p hp.2)
  regs r hr := by
    rw [List.mem_append, not_or] at hr
    exact (h'.regs r hr.2).trans (h.regs r hr.1)
  cells hm := by
    rw [List.mem_append, not_or] at hm
    exact (h'.cells hm.2).trans (h.cells hm.1)

/-- What keeps the register file keeps every register. -/
theorem Frame.of_parts (hv : .v ∉ ps) (parts : KeepsAllBut ps s t) (cells : .mem ∉ ps → t.mem = s.mem) :
    Frame ps [] s t where
  parts := parts
  regs r _ := reg_congr (parts .v hv) r
  cells := cells

variable (s)

theorem frame_raise (k : ErrorKind) : Frame [.run] [] s (s.raise k) :=
  .of_parts (by simp) (raise_frame s k) fun _ => rfl

theorem frame_setReg (r : Reg) (x : Byte) : Frame [.v] [r] s (s.setReg r x) where
  parts p hp := by cases p <;> simp_all [Part.same]
  regs q hq := by simp_all
  cells _ := rfl

theorem frame_setResultFlag (x : Reg) (r f : Byte) : Frame [.v] [x, 15] s (s.setResultFlag x r f) :=
  (frame_setReg s x r).trans (frame_setReg _ vf f) |>.mono (by simp) (by simp [vf])

theorem frame_indexFlag (sum : Nat) : Frame [.v] [15] s (s.indexFlag sum) where
  parts p hp := by cases p <;> simp_all [Part.same]
  regs q hq := by simp_all
  cells _ := indexFlag_mem s sum

theorem frame_loadRegs (x : Reg) (a : Nat) :
    Frame [.v] ((List.finRange 16).filter fun r => r.val ≤ x.val) s (s.loadRegs x a) where
  parts p hp := by cases p <;> simp_all [Part.same]
  regs q hq := by simp_all
  cells _ := rfl

theorem frame_setPc (a : Word) : Frame [.pc] [] s (s.setPc a) :=
  .of_parts (by simp) (fun p hp => by cases p <;> simp_all [Part.same]) fun _ => rfl

theorem frame_skipIf (c : Bool) : Frame [.pc] [] s (s.skipIf c) := by
  rw [skipIf_eq]; exact frame_setPc s _

theorem frame_setIndex (a : Word) : Frame [.index] [] s (s.setIndex a) :=
  .of_parts (by simp) (fun p hp => by cases p <;> simp_all [Part.same]) fun _ => rfl

theorem frame_storeBytes (a : Nat) (xs : List Byte) : Frame [.mem] [] s (s.storeBytes a xs) :=
  .of_parts (by simp) (fun p hp => by cases p <;> simp_all [Part.same]) fun hm => absurd List.mem_cons_self hm

theorem frame_drawSprite (x y : Reg) (n : Nibble) : Frame [.v, .fb, .signals] [15] s (s.drawSprite x y n) where
  parts p hp := by cases p <;> simp_all [Part.same]
  regs q hq := by
    classical
    rw [reg_drawSprite, if_neg (by simpa using hq)]
  cells _ := rfl

/-! The parts one instruction writes as they stand: no register and no memory among them. -/

theorem frame_fb (fb : Screen) : Frame [.fb] [] s { s with fb := fb } :=
  .of_parts (by simp) (fun p hp => by cases p <;> simp_all [Part.same, State.byteAt, State.background]) fun _ => rfl

theorem frame_dt (b : Byte) : Frame [.dt] [] s { s with dt := b } :=
  .of_parts (by simp) (fun p hp => by cases p <;> simp_all [Part.same, State.byteAt, State.background]) fun _ => rfl

theorem frame_st (b : Byte) : Frame [.st] [] s { s with st := b } :=
  .of_parts (by simp) (fun p hp => by cases p <;> simp_all [Part.same, State.byteAt, State.background]) fun _ => rfl

theorem frame_stack (st : List Word) : Frame [.stack] [] s { s with stack := st } :=
  .of_parts (by simp) (fun p hp => by cases p <;> simp_all [Part.same, State.byteAt, State.background]) fun _ => rfl

theorem frame_randDraws (n : Nat) : Frame [.randDraws] [] s { s with randDraws := n } :=
  .of_parts (by simp) (fun p hp => by cases p <;> simp_all [Part.same, State.byteAt, State.background]) fun _ => rfl

theorem frame_keyDraws (n : Nat) : Frame [.keyDraws] [] s { s with keyDraws := n } :=
  .of_parts (by simp) (fun p hp => by cases p <;> simp_all [Part.same, State.byteAt, State.background]) fun _ => rfl

theorem frame_chooseKey (k : Fin 16) (ks : List (Fin 16)) : Frame [.keyDraws] [] s (s.chooseKey k ks).2 := by
  rw [(chooseKey_spec s).2.2]
  exact frame_keyDraws s _

variable {s} {i : Instr}

/-- Everything the execute phase can do: it raises a kind other than `RomTooLarge`, in an instruction that R233 lets
fault, and changes nothing else; or it completes, with `RUN` and all that R39 does not list as before. -/
theorem exec_cases (h : exec i s = .next t) :
    (Part.run ∈ i.writes ∧ ∃ k, k ≠ .romTooLarge ∧ t = s.raise k) ∨
      Frame (i.writes.filter (· ≠ .run)) i.writesRegs s t := by
  cases i with
  | cls => cases h; exact .inr (frame_fb s _)
  | ret =>
    rcases exec_ret_cases h with ⟨-, rfl⟩ | ⟨rest, a, -, rfl⟩
    · exact .inl ⟨by simp [Instr.writes], _, by simp, rfl⟩
    · exact .inr (((frame_stack s rest).trans (frame_setPc _ a)).mono
          (by simp [Instr.writes]) (by simp [Instr.writesRegs]))
  | jp | jpV0 => cases h; exact .inr (frame_setPc s _)
  | call nnn =>
    rcases exec_call_cases h with ⟨-, rfl⟩ | ⟨-, rfl⟩
    · exact .inl ⟨by simp [Instr.writes], _, by simp, rfl⟩
    · exact .inr (((frame_stack s _).trans (frame_setPc { s with stack := s.stack ++ [s.pc] } _)).mono
        (by simp [Instr.writes]) (by simp))
  | seImm | sneImm | seReg | sneReg => cases h; exact .inr (frame_skipIf s _)
  | ldImm | addImm | ldReg | orReg | andReg | xorReg | ldVxDt => cases h; exact .inr (frame_setReg s _ _)
  | addReg | sub | shr | subn | shl => cases h; exact .inr (frame_setResultFlag s _ _ _)
  | ldI | ldF => cases h; exact .inr (frame_setIndex s _)
  | rnd x nn =>
    cases h
    exact .inr (((frame_randDraws s _).trans (frame_setReg _ x _)).mono
        (by simp [Instr.writes]) (by simp [Instr.writesRegs]))
  | drw x y n =>
    rcases exec_drw_cases h with ⟨-, rfl⟩ | ⟨-, rfl⟩
    · exact .inl ⟨by simp [Instr.writes], _, by simp, rfl⟩
    · exact .inr ((frame_drawSprite s x y n).mono (by simp [Instr.writes]) (by simp [Instr.writesRegs]))
  | skp x =>
    rcases exec_skp_cases h with ⟨-, rfl⟩ | ⟨k, -, rfl⟩
    · exact .inl ⟨by simp [Instr.writes], _, by simp, rfl⟩
    · exact .inr (frame_skipIf s _)
  | sknp x =>
    rcases exec_sknp_cases h with ⟨-, rfl⟩ | ⟨k, -, rfl⟩
    · exact .inl ⟨by simp [Instr.writes], _, by simp, rfl⟩
    · exact .inr (frame_skipIf s _)
  | ldVxK x =>
    rcases exec_ldVxK_cases h with ⟨-, rfl⟩ | ⟨k, ks, -, rfl⟩
    · exact .inr ((frame_setPc s _).mono (by simp [Instr.writes]) (by simp))
    · exact .inr (((frame_chooseKey s k ks).trans (frame_setReg _ x _)).mono
          (by simp [Instr.writes]) (by simp [Instr.writesRegs]))
  | ldDtVx => cases h; exact .inr (frame_dt s _)
  | ldStVx => cases h; exact .inr (frame_st s _)
  | addI x =>
    rcases exec_addI_cases h with ⟨-, rfl⟩ | ⟨-, rfl⟩
    · exact .inl ⟨by simp [Instr.writes], _, by simp, rfl⟩
    · exact .inr (((frame_setIndex s _).trans (frame_indexFlag _ _)).mono
          (by simp [Instr.writes]) (by simp [Instr.writesRegs]))
  | ldB x =>
    rcases exec_ldB_cases h with ⟨-, rfl⟩ | ⟨-, rfl⟩
    · exact .inl ⟨by simp [Instr.writes], _, by simp, rfl⟩
    · exact .inr (frame_storeBytes s _ _)
  | stRegs x =>
    rcases exec_stRegs_cases h with ⟨-, rfl⟩ | ⟨-, rfl⟩
    · exact .inl ⟨by simp [Instr.writes], _, by simp, rfl⟩
    · exact .inr ((frame_storeBytes s _ _).trans (frame_setIndex _ _))
  | ldRegs x =>
    rcases exec_ldRegs_cases h with ⟨-, rfl⟩ | ⟨-, rfl⟩
    · exact .inl ⟨by simp [Instr.writes], _, by simp, rfl⟩
    · exact .inr (((frame_loadRegs s x _).trans (frame_setIndex _ _)).mono
          (by simp [Instr.writes]) (by simp [Instr.writesRegs]))

/-- The frame of every answer, a fault's among them. -/
theorem exec_frame (h : exec i s = .next t) : Frame i.writes i.writesRegs s t := by
  rcases exec_cases h with ⟨hrun, k, -, rfl⟩ | hframe
  · exact (frame_raise s k).mono (by simpa using hrun) (by simp)
  · exact hframe.mono (List.filter_subset_self _) (List.Subset.refl _)

/-- The parts that are no instruction's to write: the keys, the configuration, the batch and the host's side. -/
theorem notMem_writes {p : Part} (hp : p ∈ [Part.key, .cfg, .rem, .params, .keyIn, .host, .loads]) (i : Instr) :
    p ∉ i.writes := by
  simp only [List.mem_cons, List.not_mem_nil, or_false] at hp
  rcases hp with rfl | rfl | rfl | rfl | rfl | rfl | rfl <;> cases i <;> simp [Instr.writes]

theorem exec_cfg (h : exec i s = .next t) : t.cfg = s.cfg := (exec_frame h).parts .cfg (notMem_writes (by simp) i)
theorem exec_rem (h : exec i s = .next t) : t.rem = s.rem := (exec_frame h).parts .rem (notMem_writes (by simp) i)
theorem exec_params (h : exec i s = .next t) : t.params = s.params :=
  (exec_frame h).parts .params (notMem_writes (by simp) i)
theorem exec_loads (h : exec i s = .next t) : t.loads = s.loads :=
  (exec_frame h).parts .loads (notMem_writes (by simp) i)

end Sys2Proof.Machine
end

section
open Sys2Proof Sys2Proof.Machine

/-- Settles O35: the frame of each instruction, a fault's included. -/
theorem instructionsWriteOnlyWhatTheMatrixLists : Obligations.InstructionsWriteOnlyWhatTheMatrixLists :=
  fun _ _ _ h => ⟨(exec_frame h).parts, (exec_frame h).regs⟩

/-- Settles O22: ANNN and FX29 give I an address below 0x1000, FX55 and FX65 are checked for it, and no other
instruction but FX1E writes I. -/
theorem onlyAddToIndexPassesTheEnd : Obligations.OnlyAddToIndexPassesTheEnd := by
  intro i s t hlow h hhigh
  cases i with
  | addI x => exact ⟨x, rfl⟩
  | ldI nnn =>
    cases h
    rw [setIndex_index, toNat_addrWord] at hhigh
    omega
  | ldF x =>
    cases h
    rw [setIndex_index, toNat_glyphAddress] at hhigh
    omega
  | stRegs x =>
    rcases exec_stRegs_cases h with ⟨-, rfl⟩ | ⟨hlast, rfl⟩
    · exact absurd hlow (Nat.not_lt.2 hhigh)
    · exact absurd (indexAfterTransfer_lt hlast) (Nat.not_lt.2 hhigh)
  | ldRegs x =>
    rcases exec_ldRegs_cases h with ⟨-, rfl⟩ | ⟨hlast, rfl⟩
    · exact absurd hlow (Nat.not_lt.2 hhigh)
    · exact absurd (indexAfterTransfer_lt hlast) (Nat.not_lt.2 hhigh)
  | _ =>
    have hsame : t.index = s.index := (exec_frame h).parts .index (by simp [Instr.writes])
    rw [hsame] at hhigh
    omega

end

section
/-! SUPPORT. What each event of the scheduler changes (spec/45_scheduler_and_host.md R200) of the
configuration. -/

namespace Sys2Proof.Machine

variable {s t : State} {i : Instr}

/-! ### Loads and ticks -/

variable (s) in
/-- A frame tick changes the timers, the snapshot, REM and the record of signals alone (R206). -/
theorem frameTick_eq : frameTick s =
    { s with dt := countDown s.dt, st := countDown s.st, key := s.keyIn, rem := s.ipf,
             signals := (frameTick s).signals } := by
  simp only [frameTick]
  split_ifs <;> rfl

section Load
variable (s) (rom : List Byte) (cfg : Cfg)

@[simp] theorem loadProgram_stack : (s.loadProgram rom cfg).stack = [] := by simp [State.loadProgram]
@[simp] theorem loadProgram_pc : (s.loadProgram rom cfg).pc = 0x0200 := by simp [State.loadProgram]
@[simp] theorem loadProgram_run : (s.loadProgram rom cfg).run = .idle := by simp [State.loadProgram]
@[simp] theorem loadProgram_cfg : (s.loadProgram rom cfg).cfg = cfg := by simp [State.loadProgram]
@[simp] theorem loadProgram_rem : (s.loadProgram rom cfg).rem = 0 := by simp [State.loadProgram]
@[simp] theorem loadProgram_params : (s.loadProgram rom cfg).params = s.params := by simp [State.loadProgram]

end Load

/-! ### The configuration -/

/-- A host event leaves the configuration, unless it is a load, which leaves its own (R222). -/
theorem perform_cfg (e : HostEvent) (s : State) :
    (e.perform s).cfg = s.cfg ∨ ∃ rom, e = .reset rom (e.perform s).cfg := by
  cases e with
  | reset rom cfg =>
    simp only [HostEvent.perform]
    split_ifs
    · exact .inl rfl
    · exact .inr ⟨rom, by rw [loadProgram_cfg]⟩
  | _ => exact .inl rfl

theorem perform_params (e : HostEvent) (s : State) : (e.perform s).params = s.params := by
  cases e with
  | reset rom cfg =>
    simp only [HostEvent.perform]
    split_ifs
    · rfl
    · exact loadProgram_params s rom cfg
  | _ => rfl

/-- A `Reset` that happens carries a legal configuration (R35). -/
theorem legal_of_enabled {rom : List Byte} {cfg : Cfg} (h : (HostEvent.reset rom cfg).enabled s = true) :
    cfg.legal = true := by
  simp only [HostEvent.enabled, Bool.and_eq_true] at h
  exact h.1

/-- An instruction step leaves the configuration and the parameters. -/
theorem instrStep_cfg_params (h : instrStep s = .next t) : t.cfg = s.cfg ∧ t.params = s.params := by
  rcases instrStep_cases h with ⟨-, rfl⟩ | ⟨-, -, rfl⟩ | ⟨i, rest, u, -, -, hu, rfl⟩
  · exact ⟨rfl, rfl⟩
  · exact ⟨rfl, rfl⟩
  · rw [endOfBatch_cfg, endOfBatch_params, exec_cfg hu, exec_params hu]
    exact ⟨rfl, rfl⟩

/-- The machine's own turn leaves the configuration and the parameters. -/
theorem machineTurn_cfg_params (h : machineTurn s = .next t) : t.cfg = s.cfg ∧ t.params = s.params := by
  rcases machineTurn_cases h with ⟨-, -, rfl⟩ | ⟨-, -, hstep⟩ | ⟨-, rfl⟩
  · rw [frameTick_eq]; exact ⟨rfl, rfl⟩
  · exact instrStep_cfg_params hstep
  · exact ⟨rfl, rfl⟩

end Sys2Proof.Machine
end

section
open Sys2Proof Sys2Proof.Machine

/-- Settles O51: of the events only a host's load writes the configuration, and its guard holds the configuration
legal. -/
theorem configurationIsConstantBetweenLoads : Obligations.ConfigurationIsConstantBetweenLoads := by
  intro s t h
  rcases step_cases h with ⟨e, rest, hhost, hguard, rfl, -⟩ | ⟨hs, -, hturn⟩
  · refine ⟨(perform_cfg e _).imp_right ?_, perform_params e _⟩
    rintro ⟨rom, he⟩
    rw [he] at hguard
    exact ⟨rom, rest, hhost.trans (congrArg (· :: rest) he), legal_of_enabled hguard⟩
  · exact (machineTurn_cfg_params hturn).imp_left .inl

end

section
/-! SUPPORT. The machine's invariant: the execute phase keeps it part by part, and each event keeps it whole. -/

namespace Sys2Proof.Machine

variable {s t : State} {i : Instr}

/-! ### The execute phase, part by part -/

/-- The call stack is left, popped, or takes the advanced PC below depth 16 (R28). -/
theorem exec_stack (h : exec i s = .next t) :
    t.stack = s.stack ∨ (∃ a, s.stack = t.stack ++ [a]) ∨
      (s.stack.length < 16 ∧ t.stack = s.stack ++ [s.pc]) := by
  cases i with
  | ret =>
    rcases exec_ret_cases h with ⟨-, rfl⟩ | ⟨rest, a, htop, rfl⟩
    · exact .inl rfl
    · exact .inr (.inl ⟨a, htop⟩)
  | call nnn =>
    rcases exec_call_cases h with ⟨-, rfl⟩ | ⟨hdepth, rfl⟩
    · exact .inl rfl
    · exact .inr (.inr ⟨hdepth, rfl⟩)
  | _ => exact .inl ((exec_frame h).parts .stack (by simp [Instr.writes]))

theorem exec_keeps_stackDepth (hs : s.stack.length ≤ 16) (h : exec i s = .next t) : t.stack.length ≤ 16 := by
  rcases exec_stack h with heq | ⟨a, htop⟩ | ⟨hdepth, hpush⟩
  · rwa [heq]
  · rw [htop, List.length_append] at hs
    omega
  · rw [hpush, List.length_append, List.length_singleton]
    omega

theorem exec_keeps_returnAddresses (hs : ∀ a ∈ s.stack, a.toNat ≤ 0x1000) (hpc : s.pc.toNat ≤ 0x1000)
    (h : exec i s = .next t) : ∀ a ∈ t.stack, a.toNat ≤ 0x1000 := by
  intro a ha
  rcases exec_stack h with heq | ⟨top, htop⟩ | ⟨-, hpush⟩
  · exact hs a (heq ▸ ha)
  · exact hs a (htop ▸ List.mem_append_left _ ha)
  · rw [hpush, List.mem_append, List.mem_singleton] at ha
    rcases ha with hold | rfl
    · exact hs a hold
    · exact hpc

theorem toNat_skipIf_pc_le (hpc : s.pc.toNat ≤ 0x1000) (c : Bool) : (s.skipIf c).pc.toNat ≤ 0x1002 := by
  rw [skipIf_pc]
  split
  · rw [BitVec.toNat_add]
    exact (Nat.mod_le _ _).trans (Nat.add_le_add_right hpc 2)
  · omega

/-- From an advanced PC the execute phase gives PC no value above 0x10FE, BNNN's largest target (R24, R26). -/
theorem exec_pc_le (hlo : 2 ≤ s.pc.toNat) (hhi : s.pc.toNat ≤ 0x1000) (hret : ∀ a ∈ s.stack, a.toNat ≤ 0x1000)
    (h : exec i s = .next t) : t.pc.toNat ≤ 0x10FE := by
  have hskip := fun c => (toNat_skipIf_pc_le hhi c).trans (by omega : 0x1002 ≤ 0x10FE)
  have hkeep : s.pc.toNat ≤ 0x10FE := by omega
  cases i with
  | ret =>
    rcases exec_ret_cases h with ⟨-, rfl⟩ | ⟨rest, a, htop, rfl⟩
    · exact hkeep
    · exact (hret a (by simp [htop])).trans (by omega)
  | jp nnn =>
    cases h
    rw [setPc_pc, toNat_addrWord]
    omega
  | call nnn =>
    rcases exec_call_cases h with ⟨-, rfl⟩ | ⟨-, rfl⟩
    · exact hkeep
    · simp only [toNat_addrWord]
      omega
  | jpV0 x nnn =>
    cases h
    rw [setPc_pc, toNat_jumpTarget]
    omega
  | seImm | sneImm | seReg | sneReg => cases h; exact hskip _
  | skp x =>
    rcases exec_skp_cases h with ⟨-, rfl⟩ | ⟨k, -, rfl⟩
    · exact hkeep
    · exact hskip _
  | sknp x =>
    rcases exec_sknp_cases h with ⟨-, rfl⟩ | ⟨k, -, rfl⟩
    · exact hkeep
    · exact hskip _
  | ldVxK x =>
    rcases exec_ldVxK_cases h with ⟨-, rfl⟩ | ⟨k, ks, -, rfl⟩
    · rw [setPc_pc]
      bv_omega
    · rw [setReg_pc, (frame_chooseKey s k ks).parts .pc (by simp)]
      exact hkeep
  | _ =>
    have hsame : t.pc = s.pc := (exec_frame h).parts .pc (by simp [Instr.writes])
    rwa [hsame]

/-- The execute phase keeps memory canonical: FX33 and FX55 store inside the address space, no other instruction
touches it (R52). -/
theorem exec_keeps_wf (hm : Memory.wf s.background s.mem) (h : exec i s = .next t) :
    Memory.wf t.background t.mem := by
  cases i with
  | ldB x =>
    rcases exec_ldB_cases h with ⟨-, rfl⟩ | ⟨hlast, rfl⟩
    · exact hm
    · refine storeBytes_keeps_wf _ _ _ ?_ hm
      rw [length_bcdDigits]
      unfold State.indexed at *
      omega
  | stRegs x =>
    rcases exec_stRegs_cases h with ⟨-, rfl⟩ | ⟨hlast, rfl⟩
    · exact hm
    · refine storeBytes_keeps_wf _ _ _ ?_ hm
      have hx := indexed_le_transferTop s x
      rw [length_regsThrough]
      unfold State.indexed at *
      omega
  | _ =>
    have hcells : t.mem = s.mem := (exec_frame h).cells (by simp [Instr.writes])
    rw [State.background, exec_params h, exec_loads h, hcells]
    exact hm

/-- No instruction halts by `RomTooLarge` (R231). -/
theorem exec_keeps_noLoadHalt (hs : ∀ p, s.run ≠ .halted .romTooLarge p) (h : exec i s = .next t) (p : Word) :
    t.run ≠ .halted .romTooLarge p := by
  rcases exec_cases h with ⟨-, k, hk, rfl⟩ | hframe
  · rw [raise_run]
    simp [hk]
  · have hsame : t.run = s.run := hframe.parts .run (by simp)
    rw [hsame]
    exact hs p

/-! ### Event by event -/

theorem exec_keeps_inv (hs : Inv s) (hlo : 2 ≤ s.pc.toNat) (hhi : s.pc.toNat ≤ 0x1000) (h : exec i s = .next t) :
    Inv t where
  memory := exec_keeps_wf hs.memory h
  stackDepth := exec_keeps_stackDepth hs.stackDepth h
  returnAddresses := exec_keeps_returnAddresses hs.returnAddresses hhi h
  pcRange := exec_pc_le hlo hhi hs.returnAddresses h
  batch := by rw [exec_rem h, exec_cfg h]; exact hs.batch
  cfgLegal := by rw [exec_cfg h]; exact hs.cfgLegal
  noLoadHalt := exec_keeps_noLoadHalt hs.noLoadHalt h

theorem inv_emit (hs : Inv s) (e : Signal) : Inv (s.emit e) :=
  ⟨hs.memory, hs.stackDepth, hs.returnAddresses, hs.pcRange, hs.batch, hs.cfgLegal, hs.noLoadHalt⟩

theorem inv_endOfBatch (hs : Inv s) : Inv s.endOfBatch := by
  unfold State.endOfBatch
  split
  · exact inv_emit hs _
  · exact hs

theorem inv_raiseAt (hs : Inv s) {k : ErrorKind} (hk : k ≠ .romTooLarge) (p : Word) : Inv (s.raiseAt k p) :=
  ⟨hs.memory, hs.stackDepth, hs.returnAddresses, hs.pcRange, hs.batch, hs.cfgLegal, by simp [hk]⟩

theorem inv_withHost (hs : Inv s) (rest : List HostEvent) : Inv { s with host := rest } :=
  ⟨hs.memory, hs.stackDepth, hs.returnAddresses, hs.pcRange, hs.batch, hs.cfgLegal, hs.noLoadHalt⟩

theorem inv_withRem (hs : Inv s) {n : Nat} (hn : n ≤ s.ipf) : Inv { s with rem := n } :=
  ⟨hs.memory, hs.stackDepth, hs.returnAddresses, hs.pcRange, hn, hs.cfgLegal, hs.noLoadHalt⟩

/-- A fetch inside memory advances PC, to at most 0x1000, without a wrap (R201). -/
theorem toNat_fetched_pc (h : s.pc.toNat + 1 < 4096) : s.fetched.pc.toNat = s.pc.toNat + 2 := by
  rw [fetched_pc]
  bv_omega

theorem inv_fetched (hs : Inv s) (hpc : s.pc.toNat + 1 < 4096) : Inv s.fetched where
  memory := hs.memory
  stackDepth := hs.stackDepth
  returnAddresses := hs.returnAddresses
  pcRange := by rw [toNat_fetched_pc hpc]; omega
  batch := (Nat.sub_le _ _).trans hs.batch
  cfgLegal := hs.cfgLegal
  noLoadHalt := hs.noLoadHalt

theorem instrStep_keeps_inv (hs : Inv s) (h : instrStep s = .next t) : Inv t := by
  rcases instrStep_cases h with ⟨-, rfl⟩ | ⟨hpc, -, rfl⟩ | ⟨i, rest, u, hpc, -, hu, rfl⟩
  · exact inv_raiseAt (inv_withRem hs ((Nat.sub_le _ _).trans hs.batch)) (by simp) _
  · exact inv_raiseAt (inv_fetched hs hpc) (by simp) _
  · have hadv := toNat_fetched_pc hpc
    exact inv_endOfBatch (exec_keeps_inv (inv_fetched hs hpc) (by omega) (by omega) hu)

theorem frameTick_keeps_inv (hs : Inv s) : Inv (frameTick s) := by
  rw [frameTick_eq]
  exact ⟨hs.memory, hs.stackDepth, hs.returnAddresses, hs.pcRange, le_rfl, hs.cfgLegal, hs.noLoadHalt⟩

theorem machineTurn_keeps_inv (hs : Inv s) (h : machineTurn s = .next t) : Inv t := by
  rcases machineTurn_cases h with ⟨-, -, rfl⟩ | ⟨-, -, hstep⟩ | ⟨-, rfl⟩
  · exact frameTick_keeps_inv hs
  · exact instrStep_keeps_inv hs hstep
  · exact hs

theorem inv_loadProgram {rom : List Byte} {cfg : Cfg} (hrom : rom.length ≤ 3584) (hcfg : cfg.legal = true) :
    Inv (s.loadProgram rom cfg) where
  memory := loadProgram_wf s rom cfg hrom
  stackDepth := by simp
  returnAddresses := by simp
  pcRange := by simp
  batch := by simp
  cfgLegal := by simpa using hcfg
  noLoadHalt := by simp

/-- What the host does where its guard holds keeps the invariant. -/
theorem perform_keeps_inv {e : HostEvent} {u : State} (hs : Inv s) (hguard : e.enabled u = true) :
    Inv (e.perform s) := by
  cases e with
  | wait => exact hs
  | key k x =>
    exact ⟨hs.memory, hs.stackDepth, hs.returnAddresses, hs.pcRange, hs.batch, hs.cfgLegal, hs.noLoadHalt⟩
  | start | stop =>
    exact ⟨hs.memory, hs.stackDepth, hs.returnAddresses, hs.pcRange, hs.batch, hs.cfgLegal, by simp [HostEvent.perform]⟩
  | reset rom cfg =>
    simp only [HostEvent.perform]
    split_ifs with hbig
    · exact inv_emit hs _
    · exact inv_loadProgram (by omega) (legal_of_enabled hguard)

end Sys2Proof.Machine
end

section
open Sys2Proof Sys2Proof.Machine

/-- Settles O54: each of the events a step can be keeps the invariant. -/
theorem everyStepKeepsTheInvariant : Obligations.EveryStepKeepsTheInvariant := by
  intro s t hs h
  rcases step_cases h with ⟨e, rest, -, hguard, rfl, -⟩ | ⟨hs', -, hturn⟩
  · exact perform_keeps_inv (inv_withHost hs rest) hguard
  · exact machineTurn_keeps_inv (inv_withHost hs hs') hturn

end

section
/-! SUPPORT. What FX33 and FX55 store is what the next fetch reads (spec/20_memory.md R62, decision D29). -/

namespace Sys2Proof.Machine

variable {s : State}

/-! ### The transfers that complete -/

/-- What FX55 and FX65 check is the last byte, one further under the legacy advance (R157, decision D10). -/
theorem transferTop_eq (s : State) (x : Reg) :
    s.transferTop x = s.index.toNat + x.val + if s.cfg.legacyStoreLoadAdvancesIndex then 1 else 0 := by
  unfold State.transferTop State.indexed
  split <;> rfl

/-- FX55 (R155). -/
theorem exec_stRegs_of_lt {x : Reg} (h : s.transferTop x < 4096) :
    exec (.stRegs x) s =
      .next ((s.storeBytes s.index.toNat (s.regsThrough x)).setIndex (s.indexAfterTransfer x)) :=
  guardAddress_of_lt s _ h

/-- FX33 (R154). -/
theorem exec_ldB_of_lt {x : Reg} (h : s.indexed 2 < 4096) :
    exec (.ldB x) s = .next (s.storeBytes s.index.toNat (bcdDigits (s.reg x))) :=
  guardAddress_of_lt s _ h

/-! ### The bytes they store -/

theorem regsThrough_getElem?_of_le {x k : Reg} (h : k ≤ x) : (s.regsThrough x)[k.val]? = some (s.reg k) := by
  have hk : k.val < (s.regsThrough x).length := by
    rw [length_regsThrough]
    exact Nat.lt_succ_of_le h
  rw [List.getElem?_eq_getElem hk, getElem_regsThrough]

/-- The digits of a byte each fit a byte (R154). -/
theorem bcdDigits_map_toNat (b : Byte) :
    (bcdDigits b).map BitVec.toNat = [b.toNat / 100, b.toNat / 10 % 10, b.toNat % 10] := by
  have hb := b.isLt
  simp only [bcdDigits, List.map_cons, List.map_nil, BitVec.toNat_ofNat, List.cons.injEq, and_true]
  omega

/-- FX33's table of digits, read as the bytes it stores (R154). -/
theorem bcdDigits_getElem?_of_mem {b : Byte} {k digit : Nat}
    (h : (k, digit) ∈ [(0, b.toNat / 100), (1, b.toNat / 10 % 10), (2, b.toNat % 10)]) :
    ∃ d, (bcdDigits b)[k]? = some d ∧ d.toNat = digit := by
  rw [← Option.map_eq_some_iff, ← List.getElem?_map, bcdDigits_map_toNat]
  simp only [List.mem_cons, Prod.mk.injEq, List.not_mem_nil, or_false] at h
  rcases h with ⟨rfl, rfl⟩ | ⟨rfl, rfl⟩ | ⟨rfl, rfl⟩ <;> rfl

/-! ### The fetch that follows -/

@[simp] theorem fetchBytes_setIndex (s : State) (i : Word) : (s.setIndex i).fetchBytes = s.fetchBytes := rfl

/-- A stored byte reads back at its own address (R54, R56). -/
theorem byteAt_storeBytes_of_getElem? {a k : Nat} {xs : List Byte} {b : Byte} (h : xs[k]? = some b) :
    (s.storeBytes a xs).byteAt (a + k) = b := by
  obtain ⟨hk, hb⟩ := List.getElem?_eq_some_iff.1 h
  rw [byteAt_storeBytes, dif_pos ⟨Nat.le_add_right a k, Nat.add_lt_add_left hk a⟩]
  simpa using hb

/-- The fetch after a store reads the stored byte, where it lies at either of the two bytes fetched (R62). -/
theorem fetchBytes_storeBytes {a k : Nat} {xs : List Byte} {b : Byte} (h : xs[k]? = some b) :
    (s.pc.toNat = a + k → (s.storeBytes a xs).fetchBytes[0]? = some b) ∧
      (s.pc.toNat + 1 = a + k → (s.storeBytes a xs).fetchBytes[1]? = some b) := by
  have hread := byteAt_storeBytes_of_getElem? (s := s) (a := a) h
  exact ⟨fun hpc => by simp [State.fetchBytes, hpc, hread], fun hpc => by simp [State.fetchBytes, hpc, hread]⟩

end Sys2Proof.Machine
end

section
open Sys2Proof Sys2Proof.Machine

/-- Settles O27: a fetch reads the memory that the store before it left. -/
theorem nextFetchSeesTheStore : Obligations.NextFetchSeesTheStore := by
  intro x s
  constructor
  · intro hlast
    rw [← transferTop_eq] at hlast
    exact ⟨_, exec_stRegs_of_lt hlast, by simp, fun k hk => fetchBytes_storeBytes (regsThrough_getElem?_of_le hk)⟩
  · intro hlast
    refine ⟨_, exec_ldB_of_lt hlast, by simp, fun k digit hdigit => ?_⟩
    obtain ⟨d, hd, rfl⟩ := bcdDigits_getElem?_of_mem hdigit
    obtain ⟨hfirst, hsecond⟩ := fetchBytes_storeBytes (s := s) (a := s.index.toNat) hd
    exact ⟨fun hpc => Option.map_eq_some_iff.2 ⟨d, hfirst hpc, rfl⟩,
      fun hpc => Option.map_eq_some_iff.2 ⟨d, hsecond hpc, rfl⟩⟩

end

section
/-! SUPPORT. The decoder and the encoder (spec/30_encoding.md R71, R74, R75): a word of a row is put together from its
own fields, the encoder is a right inverse of the decoder, and a word that decodes is the word of its instruction. -/

namespace Sys2Proof

variable {w : Word} {i : Instr}

/-! ### A word with some of its fields known -/

theorem formNNN_of_fieldC {c : BitVec 4} (hc : fieldC w = c) : formNNN c (fieldNNN w) = w :=
  hc ▸ formNNN_fields w

theorem formXNN_of_fieldC {c : BitVec 4} (hc : fieldC w = c) : formXNN c (fieldX w) (fieldNN w) = w :=
  hc ▸ formXNN_fields w

theorem formXYN_of_fieldC {c : BitVec 4} (hc : fieldC w = c) :
    formXYN c (fieldX w) (fieldY w) (fieldN w) = w :=
  hc ▸ formXYN_fields w

theorem formXNN_of_fields {c : BitVec 4} {nn : Byte} (hc : fieldC w = c) (hnn : fieldNN w = nn) :
    formXNN c (fieldX w) nn = w :=
  hnn ▸ formXNN_of_fieldC hc

theorem formXYN_of_fields {c : BitVec 4} {n : Nibble} (hc : fieldC w = c) (hn : fieldN w = n) :
    formXYN c (fieldX w) (fieldY w) n = w :=
  hn ▸ formXYN_of_fieldC hc

/-! ### The decoder on the word of an instruction -/

/-- The decoder on a word's two bytes in memory order (R53, R70). -/
theorem decode_bytesOfWord_append (w : Word) (rest : List Byte) :
    decode (bytesOfWord w ++ rest) = (decodeWord w).map (fun i => (i, rest)) := by
  simp [bytesOfWord, decode]

theorem decodeWord_encode (hi : i.wellFormed = true) : decodeWord (encode i) = .ok i := by
  cases i with
  | cls | ret => rfl
  | jpV0 x nnn =>
    have hx : x = topNibble nnn := by simpa [Instr.wellFormed] using hi
    simp [encode, decodeWord, hx]
  | jp | call | ldI | seImm | sneImm | ldImm | addImm | rnd | seReg | sneReg | drw => simp [encode, decodeWord]
  | ldReg | orReg | andReg | xorReg | addReg | sub | shr | subn | shl => simp [encode, decodeWord, decode8]
  | skp | sknp => simp [encode, decodeWord, decodeE]
  | ldVxDt | ldVxK | ldDtVx | ldStVx | addI | ldF | ldB | stRegs | ldRegs => simp [encode, decodeWord, decodeF]

/-! ### A word that decodes -/

theorem encode_of_decode0 (h : decode0 w = .ok i) : i.wellFormed = true ∧ encode i = w := by
  unfold decode0 at h
  split_ifs at h with h0 h1
  · cases h; exact ⟨rfl, h0.symm⟩
  · cases h; exact ⟨rfl, h1.symm⟩

theorem encode_of_decode8 (hc : fieldC w = 0x8#4) (h : decode8 w = .ok i) :
    i.wellFormed = true ∧ encode i = w := by
  unfold decode8 at h
  split at h <;> cases h
  all_goals
    next hn => exact ⟨rfl, formXYN_of_fields hc (BitVec.eq_of_toNat_eq hn)⟩

theorem encode_of_decodeE (hc : fieldC w = 0xE#4) (h : decodeE w = .ok i) :
    i.wellFormed = true ∧ encode i = w := by
  unfold decodeE at h
  split_ifs at h with hnn hnn
  all_goals
    cases h; exact ⟨rfl, formXNN_of_fields hc hnn⟩

theorem encode_of_decodeF (hc : fieldC w = 0xF#4) (h : decodeF w = .ok i) :
    i.wellFormed = true ∧ encode i = w := by
  simp only [decodeF] at h
  split_ifs at h
  all_goals
    next hnn => cases h; exact ⟨rfl, formXNN_of_fields hc hnn⟩

/-- A word that decodes is the word of its instruction, which is well-formed: the dispatch of R74 arm by arm (arm
`h_k` is category k - 1). -/
theorem encode_of_decodeWord (h : decodeWord w = .ok i) : i.wellFormed = true ∧ encode i = w := by
  unfold decodeWord at h
  split at h
  case h_1 => exact encode_of_decode0 h
  case h_9 hc => exact encode_of_decode8 (BitVec.eq_of_toNat_eq hc) h
  case h_15 hc => exact encode_of_decodeE (BitVec.eq_of_toNat_eq hc) h
  case h_16 =>
    have hlt := (fieldC w).isLt
    exact encode_of_decodeF (BitVec.eq_of_toNat_eq (by grind)) h
  case h_6 hc | h_10 hc =>
    split_ifs at h with hn
    cases h; exact ⟨rfl, formXYN_of_fields (BitVec.eq_of_toNat_eq hc) hn⟩
  case h_2 hc | h_3 hc | h_11 hc => cases h; exact ⟨rfl, formNNN_of_fieldC (BitVec.eq_of_toNat_eq hc)⟩
  case h_12 hc =>
    cases h
    exact ⟨by simp [Instr.wellFormed, topNibble_fieldNNN], formNNN_of_fieldC (BitVec.eq_of_toNat_eq hc)⟩
  case h_14 hc => cases h; exact ⟨rfl, formXYN_of_fieldC (BitVec.eq_of_toNat_eq hc)⟩
  all_goals
    next hc => cases h; exact ⟨rfl, formXNN_of_fieldC (BitVec.eq_of_toNat_eq hc)⟩

/-! ### Rows (R75) -/

theorem fieldC_of_category {c : BitVec 4} (h : w &&& 0xF000#16 = formNNN c 0) : fieldC w = c := by
  rw [← formNNN_fields w, formNNN_and_category] at h
  simpa using congrArg fieldC h

theorem formXNN_of_low_byte {c : BitVec 4} {nn : Byte} (h : w &&& 0xF0FF#16 = formXNN c 0 nn) :
    formXNN c (fieldX w) nn = w := by
  rw [← formXNN_fields w, formXNN_and_low_byte] at h
  have hc : fieldC w = c := by simpa using congrArg fieldC h
  have hnn : fieldNN w = nn := by simpa using congrArg fieldNN h
  exact formXNN_of_fields hc hnn

theorem formXYN_of_low_nibble {c : BitVec 4} {n : Nibble} (h : w &&& 0xF00F#16 = formXYN c 0 0 n) :
    formXYN c (fieldX w) (fieldY w) n = w := by
  rw [← formXYN_fields w, formXYN_and_low_nibble] at h
  have hc : fieldC w = c := by simpa using congrArg fieldC h
  have hn : fieldN w = n := by simpa using congrArg fieldN h
  exact formXYN_of_fields hc hn

/-- The instruction of the same row whose operands are the fields of `w` (R71). -/
def Instr.withFields (w : Word) : Instr → Instr
  | .cls => .cls
  | .ret => .ret
  | .jp _ => .jp (fieldNNN w)
  | .call _ => .call (fieldNNN w)
  | .seImm _ _ => .seImm (fieldX w) (fieldNN w)
  | .sneImm _ _ => .sneImm (fieldX w) (fieldNN w)
  | .seReg _ _ => .seReg (fieldX w) (fieldY w)
  | .ldImm _ _ => .ldImm (fieldX w) (fieldNN w)
  | .addImm _ _ => .addImm (fieldX w) (fieldNN w)
  | .ldReg _ _ => .ldReg (fieldX w) (fieldY w)
  | .orReg _ _ => .orReg (fieldX w) (fieldY w)
  | .andReg _ _ => .andReg (fieldX w) (fieldY w)
  | .xorReg _ _ => .xorReg (fieldX w) (fieldY w)
  | .addReg _ _ => .addReg (fieldX w) (fieldY w)
  | .sub _ _ => .sub (fieldX w) (fieldY w)
  | .shr _ _ => .shr (fieldX w) (fieldY w)
  | .subn _ _ => .subn (fieldX w) (fieldY w)
  | .shl _ _ => .shl (fieldX w) (fieldY w)
  | .sneReg _ _ => .sneReg (fieldX w) (fieldY w)
  | .ldI _ => .ldI (fieldNNN w)
  | .jpV0 _ _ => .jpV0 (fieldX w) (fieldNNN w)
  | .rnd _ _ => .rnd (fieldX w) (fieldNN w)
  | .drw _ _ _ => .drw (fieldX w) (fieldY w) (fieldN w)
  | .skp _ => .skp (fieldX w)
  | .sknp _ => .sknp (fieldX w)
  | .ldVxDt _ => .ldVxDt (fieldX w)
  | .ldVxK _ => .ldVxK (fieldX w)
  | .ldDtVx _ => .ldDtVx (fieldX w)
  | .ldStVx _ => .ldStVx (fieldX w)
  | .addI _ => .addI (fieldX w)
  | .ldF _ => .ldF (fieldX w)
  | .ldB _ => .ldB (fieldX w)
  | .stRegs _ => .stRegs (fieldX w)
  | .ldRegs _ => .ldRegs (fieldX w)

theorem rowMask_withFields (w : Word) (i : Instr) : rowMask (i.withFields w) = rowMask i := by cases i <;> rfl

theorem rowMatch_withFields (w : Word) (i : Instr) : rowMatch (i.withFields w) = rowMatch i := by cases i <;> rfl

theorem wellFormed_withFields (w : Word) (i : Instr) : (i.withFields w).wellFormed = true := by
  cases i with
  | jpV0 => simp [Instr.withFields, Instr.wellFormed, topNibble_fieldNNN]
  | _ => rfl

/-- A word with a row's bits is the word of that row's instruction with the word's own fields. -/
theorem encode_withFields (h : w &&& rowMask i = rowMatch i) : encode (i.withFields w) = w := by
  cases i with
  | cls | ret => exact h.symm.trans BitVec.and_allOnes
  | jp | call | ldI | jpV0 => exact formNNN_of_fieldC (fieldC_of_category h)
  | seImm | sneImm | ldImm | addImm | rnd => exact formXNN_of_fieldC (fieldC_of_category h)
  | drw => exact formXYN_of_fieldC (fieldC_of_category h)
  | seReg | sneReg | ldReg | orReg | andReg | xorReg | addReg | sub | shr | subn | shl =>
    exact formXYN_of_low_nibble h
  | skp | sknp | ldVxDt | ldVxK | ldDtVx | ldStVx | addI | ldF | ldB | stRegs | ldRegs =>
    exact formXNN_of_low_byte h

/-- Every word with a row's bits decodes to that row's instruction, with the operands of the word's own fields. -/
theorem encodes_row (i : Instr) : Machine.Encodes (rowMask i) (rowMatch i) i.withFields := by
  intro w h
  have hdec := decodeWord_encode (wellFormed_withFields w i)
  rwa [encode_withFields h] at hdec

open Laws in
theorem encode_and_rowMask : ∀ i : Instr, encode i &&& rowMask i = rowMatch i
  | .cls => OwnRow.cls
  | .ret => OwnRow.ret
  | .jp nnn => OwnRow.jp nnn
  | .call nnn => OwnRow.call nnn
  | .seImm x nn => OwnRow.seImm x nn
  | .sneImm x nn => OwnRow.sneImm x nn
  | .seReg x y => OwnRow.seReg x y
  | .ldImm x nn => OwnRow.ldImm x nn
  | .addImm x nn => OwnRow.addImm x nn
  | .ldReg x y => OwnRow.ldReg x y
  | .orReg x y => OwnRow.orReg x y
  | .andReg x y => OwnRow.andReg x y
  | .xorReg x y => OwnRow.xorReg x y
  | .addReg x y => OwnRow.addReg x y
  | .sub x y => OwnRow.sub x y
  | .shr x y => OwnRow.shr x y
  | .subn x y => OwnRow.subn x y
  | .shl x y => OwnRow.shl x y
  | .sneReg x y => OwnRow.sneReg x y
  | .ldI nnn => OwnRow.ldI nnn
  | .jpV0 x nnn => OwnRow.jpV0 x nnn
  | .rnd x nn => OwnRow.rnd x nn
  | .drw x y n => OwnRow.drw x y n
  | .skp x => OwnRow.skp x
  | .sknp x => OwnRow.sknp x
  | .ldVxDt x => OwnRow.ldVxDt x
  | .ldVxK x => OwnRow.ldVxK x
  | .ldDtVx x => OwnRow.ldDtVx x
  | .ldStVx x => OwnRow.ldStVx x
  | .addI x => OwnRow.addI x
  | .ldF x => OwnRow.ldF x
  | .ldB x => OwnRow.ldB x
  | .stRegs x => OwnRow.stRegs x
  | .ldRegs x => OwnRow.ldRegs x

end Sys2Proof
end

section
open Sys2Proof Sys2Proof.Machine

/-- Settles O3: on the word by the encoder's cases, on the bytes because they are put together to the word. -/
theorem decodeOfEncodeIsTheInstruction : Obligations.DecodeOfEncodeIsTheInstruction := by
  intro i hi
  have hword := decodeWord_encode hi
  refine ⟨hword, fun rest => ?_⟩
  rw [decode_bytesOfWord_append, hword]
  rfl

/-- Settles O4, by the inversion of the dispatch. -/
theorem encodeOfDecodeIsTheWord : Obligations.EncodeOfDecodeIsTheWord :=
  fun _ _ => encode_of_decodeWord

/-- Settles O1: a decoded word is its instruction's word, which has its row's bits; a word with a row's bits decodes to
the row's instruction with the word's own fields. -/
theorem wordsDecodeByMaskAndMatch : Obligations.WordsDecodeByMaskAndMatch := by
  constructor
  · intro w i h
    obtain ⟨-, rfl⟩ := encode_of_decodeWord h
    exact encode_and_rowMask i
  · intro w i h
    exact ⟨i.withFields w, encodes_row i w h, rowMask_withFields w i, rowMatch_withFields w i⟩

end

section
/-! SUPPORT. The words each part of the decoder refuses (spec/30_encoding.md R86). -/

namespace Sys2Proof

variable {w : Word}

theorem toNat_fieldC (w : Word) : (fieldC w).toNat = w.toNat / 4096 := by
  have hw := w.isLt
  rw [fieldC, BitVec.extractLsb'_toNat, Nat.shiftRight_eq_div_pow]
  omega

theorem toNat_fieldN (w : Word) : (fieldN w).toNat = w.toNat % 16 := by
  simp [fieldN]

theorem toNat_fieldNN (w : Word) : (fieldNN w).toNat = w.toNat % 256 := by
  simp [fieldNN]

/-- A row with one operand field fixed at 0 refuses the words with another value there. -/
theorem ite_ok_error_iff {p : Prop} [Decidable p] {i : Instr} {e : DecodeError} :
    (∃ e', (if p then Except.ok i else Except.error e) = .error e') ↔ ¬p := by
  split_ifs with hp <;> simp [hp]

theorem decode0_error_iff : (∃ e, decode0 w = .error e) ↔ w.toNat ≠ 0x00E0 ∧ w.toNat ≠ 0x00EE := by
  unfold decode0
  split_ifs with h0 h1 <;> simp_all [← BitVec.toNat_inj]

theorem decode8_error_iff :
    (∃ e, decode8 w = .error e) ↔ w.toNat % 16 ∈ [0x8, 0x9, 0xA, 0xB, 0xC, 0xD, 0xF] := by
  rw [← toNat_fieldN]
  have hlt := (fieldN w).isLt
  unfold decode8
  split
  case h_10 =>
    refine iff_of_true ⟨_, rfl⟩ ?_
    simp only [List.mem_cons, List.not_mem_nil, or_false]
    grind
  all_goals
    next hn => simp [hn]

theorem decodeE_error_iff : (∃ e, decodeE w = .error e) ↔ w.toNat % 256 ∉ [0x9E, 0xA1] := by
  rw [← toNat_fieldNN]
  unfold decodeE
  split_ifs with h h <;> simp_all [← BitVec.toNat_inj]

theorem decodeF_error_iff :
    (∃ e, decodeF w = .error e) ↔
      w.toNat % 256 ∉ [0x07, 0x0A, 0x15, 0x18, 0x1E, 0x29, 0x33, 0x55, 0x65] := by
  rw [← toNat_fieldNN]
  simp only [decodeF]
  split_ifs <;> simp_all [← BitVec.toNat_inj]

end Sys2Proof
end

section
open Sys2Proof Sys2Proof.Machine

/-- Settles O2: of the categories, six refuse words, each those of its own line of R86 (arm `h_k` is category k - 1). -/
theorem undefinedWordsAreThoseListed : Obligations.UndefinedWordsAreThoseListed := by
  intro w
  rw [← toNat_fieldC, ← decode0_error_iff, ← decode8_error_iff, ← decodeE_error_iff, ← decodeF_error_iff,
    ← toNat_fieldN]
  have hlt := (fieldC w).isLt
  unfold decodeWord
  split
  case h_16 =>
    have hc : (fieldC w).toNat = 15 := by grind
    simp [hc]
  case h_6 hc | h_10 hc =>
    simp [hc, ite_ok_error_iff, ← BitVec.toNat_inj]
  all_goals
    next hc => simp [hc]

/-- Settles O5: each word is closed, and the decoder computes. -/
theorem sampleWordsDecodeAsTheTableSays : Obligations.SampleWordsDecodeAsTheTableSays := by
  unfold Obligations.SampleWordsDecodeAsTheTableSays
  decide

end

section
/-! SUPPORT. The instruction step on an undefined word (spec/30_encoding.md R85). -/

namespace Sys2Proof.Machine

variable {s : State}

/-- A fault raised after the fetch reports the address of the instruction (R232, decision D4). -/
theorem raise_fetched (s : State) (k : ErrorKind) : s.fetched.raise k = s.fetched.raiseAt k s.pc := by
  rw [State.raise, fetched_pc, BitVec.add_sub_cancel]

theorem instrStep_of_undefined {e : DecodeError} (hpc : s.pc.toNat + 1 < 4096)
    (hdec : decode s.fetchBytes = .error e) :
    instrStep s = .next (s.fetched.raiseAt .illegalInstruction s.pc) := by
  rw [instrStep, if_neg (by omega), hdec, ← raise_fetched]

theorem decode_fetchBytes_of_undefined {e : DecodeError}
    (h : decodeWord (s.byteAt s.pc.toNat ++ s.byteAt (s.pc.toNat + 1)) = .error e) :
    decode s.fetchBytes = .error e := by
  rw [decode_fetchBytes, wordOfBytes, h]
  rfl

end Sys2Proof.Machine
end

section
open Sys2Proof Sys2Proof.Machine

/-- Settles O39: inside a batch the step is the instruction step, whose decoder refuses the two bytes fetched. -/
theorem undefinedWordHalts : Obligations.UndefinedWordHalts := by
  intro s e hhost hrun hrem hpc hword
  rw [step_in_batch hhost hrun hrem.ne', instrStep_of_undefined hpc (decode_fetchBytes_of_undefined hword)]
  rfl

end

section
/-! SUPPORT. The flow-control instructions (spec/40_flow.md), forwards: what a call and a return answer on each side of
their depth check, and what a skip answers. -/

namespace Sys2Proof.Machine

variable {s : State}

/-! ### Call and return -/

/-- 2NNN below depth 16 (R101). -/
theorem exec_call_of_lt {nnn : Addr12} (h : s.stack.length < 16) :
    exec (.call nnn) s = .next { s with stack := s.stack ++ [s.pc], pc := addrWord nnn } := by
  change execCall nnn s = _
  rw [execCall, push_of_lt s _ h]
  rfl

/-- 2NNN on a full stack (R101). -/
theorem exec_call_of_full {nnn : Addr12} (h : 16 ≤ s.stack.length) :
    exec (.call nnn) s = .next (s.raise .stackOverflow) := by
  change execCall nnn s = _
  rw [execCall, push_of_full s _ h]

/-- 00EE with `a` on top of the stack (R102). -/
theorem exec_ret_of_append {st : List Word} {a : Word} (h : s.stack = st ++ [a]) :
    exec .ret s = .next { s with stack := st, pc := a } := by
  change execRet s = _
  rw [execRet, pop_of_append s h]
  rfl

/-- 00EE on an empty stack (R102). -/
theorem exec_ret_of_nil (h : s.stack = []) : exec .ret s = .next (s.raise .stackUnderflow) := by
  change execRet s = _
  rw [execRet, pop_of_nil s h]

/-- What a call and a return that complete write: the stack and PC. -/
theorem frame_stack_pc (s : State) (st : List Word) (a : Word) :
    Frame [.pc, .stack] [] s { s with stack := st, pc := a } :=
  ((frame_stack s st).trans (frame_setPc { s with stack := st } a)).mono (by simp) (by simp)

/-! ### Skips -/

/-- An instruction that skips on `c` adds 2 to PC exactly when the condition `p` that `c` tests holds (R109). -/
theorem exec_skip_spec {i : Instr} {c : Bool} {p : Prop} [Decidable p] (h : exec i s = .next (s.skipIf c))
    (hc : c = true ↔ p) :
    ∃ t, exec i s = .next t ∧ t.pc = (if p then s.pc + 2 else s.pc) ∧ KeepsAllBut [.pc] s t :=
  ⟨_, h, by simp [hc], (frame_skipIf s c).parts⟩

end Sys2Proof.Machine
end

section
open Sys2Proof Sys2Proof.Machine

/-- Settles O6: the jump is one write of PC, and NNN zero-extended is NNN as a number. -/
theorem jumpGoesToItsAddress : Obligations.JumpGoesToItsAddress :=
  ⟨encodes_row (.jp 0), fun nnn s => ⟨s.setPc (addrWord nnn), rfl, toNat_addrWord nnn, (frame_setPc s _).parts⟩⟩

/-- Settles O7, on either side of the depth check. -/
theorem callPushesTheAdvancedPc : Obligations.CallPushesTheAdvancedPc := by
  refine ⟨encodes_row (.call 0), fun nnn s => ⟨fun hdepth => ?_, fun hfull => ?_⟩⟩
  · exact ⟨_, exec_call_of_lt hdepth, rfl, toNat_addrWord nnn, (frame_stack_pc s _ _).parts⟩
  · exact ⟨_, _, exec_call_of_full hfull.ge, raise_run s _, raise_frame s _⟩

/-- Settles O8, by whether the stack has a top. -/
theorem returnPopsIntoPc : Obligations.ReturnPopsIntoPc := by
  refine ⟨encodes_row .ret, fun s => ⟨fun st a htop => ?_, fun hnil => ?_⟩⟩
  · exact ⟨_, exec_ret_of_append htop, rfl, rfl, (frame_stack_pc s st a).parts⟩
  · exact ⟨_, _, exec_ret_of_nil hnil, raise_run s _, raise_frame s _⟩

/-- Settles O9: the pair of updates that the return makes restores the two fields that the call changed. -/
theorem returnUndoesCall : Obligations.ReturnUndoesCall :=
  fun nnn _ hdepth => ⟨_, exec_call_of_lt hdepth, toNat_addrWord nnn, exec_ret_of_append rfl⟩

/-- Settles O10: NNN and a byte sum below 2^16, so the target is the sum as a number. -/
theorem computedJumpAddsItsRegister : Obligations.ComputedJumpAddsItsRegister := by
  refine ⟨encodes_row (.jpV0 0 0), fun x nnn s => ⟨s.setPc (s.jumpTarget x nnn), rfl, ?_, (frame_setPc s _).parts⟩⟩
  rw [setPc_pc, toNat_jumpTarget, State.jumpOffset, apply_ite BitVec.toNat]

/-- Settles O11: 3XNN skips on the Boolean test of `=`, 4XNN on that of `≠`. -/
theorem skipsOnAnImmediate : Obligations.SkipsOnAnImmediate :=
  ⟨encodes_row (.seImm 0 0), encodes_row (.sneImm 0 0),
    fun _ _ _ => ⟨exec_skip_spec rfl beq_iff_eq, exec_skip_spec rfl bne_iff_ne⟩⟩

/-- Settles O12: 5XY0 skips on the Boolean test of `=`, 9XY0 on that of `≠`. -/
theorem skipsOnTwoRegisters : Obligations.SkipsOnTwoRegisters :=
  ⟨encodes_row (.seReg 0 0), encodes_row (.sneReg 0 0),
    fun _ _ _ => ⟨exec_skip_spec rfl beq_iff_eq, exec_skip_spec rfl bne_iff_ne⟩⟩

end

section
/-! SUPPORT. The ALU instructions (spec/41_alu.md): the flags as numbers, and the two shapes of an answer, one register
written, or a result and then VF. -/

namespace Sys2Proof.Machine

/-! ### Flags (R120) -/

theorem toNat_flagByte (b : Bool) : (flagByte b).toNat = b.toNat := by cases b <;> rfl

theorem toNat_carryFlag (a b : Byte) : (carryFlag a b).toNat = if a.toNat + b.toNat > 255 then 1 else 0 := by
  rw [carryFlag, toNat_flagByte, Bool.toNat, Bool.cond_decide]

theorem toNat_noBorrowFlag (a b : Byte) : (noBorrowFlag a b).toNat = if a.toNat ≥ b.toNat then 1 else 0 := by
  rw [noBorrowFlag, toNat_flagByte, Bool.toNat, Bool.cond_decide]

/-- Bit 0 is the remainder of the halving (R131). -/
theorem toNat_shiftedOutRight (a : Byte) : (shiftedOutRight a).toNat = a.toNat % 2 := by
  rw [shiftedOutRight, toNat_flagByte, BitVec.getLsbD, Nat.toNat_testBit, Nat.pow_zero, Nat.div_one]

/-- Bit 7 is all that stands above 127 in a byte (R132). -/
theorem toNat_shiftedOutLeft (a : Byte) : (shiftedOutLeft a).toNat = a.toNat / 128 := by
  have ha := a.isLt
  rw [shiftedOutLeft, toNat_flagByte, BitVec.getLsbD, Nat.toNat_testBit]
  omega

/-! ### Results -/

/-- A subtraction of bytes with its borrow, 256 (R129, R130). -/
theorem toNat_sub_byte (a b : Byte) :
    (a - b).toNat = if a.toNat ≥ b.toNat then a.toNat - b.toNat else a.toNat + 256 - b.toNat := by
  have ha := a.isLt
  rw [BitVec.toNat_sub]
  split <;> omega

theorem toNat_shiftRight_one (a : Byte) : (a >>> 1).toNat = a.toNat / 2 := by
  rw [BitVec.toNat_ushiftRight, Nat.shiftRight_eq_div_pow, Nat.pow_one]

theorem toNat_shiftLeft_one (a : Byte) : (a <<< 1).toNat = a.toNat * 2 % 256 := by
  rw [BitVec.toNat_shiftLeft, Nat.shiftLeft_eq, Nat.pow_one]

/-! ### Answers -/

variable {s : State} {i : Instr}

/-- An instruction that writes V[X] alone. -/
theorem exec_setReg_spec {x : Reg} {b : Byte} (h : exec i s = .next (s.setReg x b)) :
    ∃ t, exec i s = .next t ∧ t.reg x = b ∧ KeepsRegsBut [x] s t ∧ KeepsAllBut [.v] s t :=
  ⟨_, h, by simp, (frame_setReg s x b).regs, (frame_setReg s x b).parts⟩

/-- An instruction that writes its result and then its flag: with X = 15 the flag is what stays (R121, decision
D13). -/
theorem exec_setResultFlag_spec {x : Reg} {r f : Byte} {m n : Nat} (h : exec i s = .next (s.setResultFlag x r f))
    (hr : r.toNat = m) (hf : f.toNat = n) :
    ∃ t, exec i s = .next t ∧ (x ≠ 15 → (t.reg x).toNat = m) ∧ (t.reg 15).toNat = n ∧
      KeepsRegsBut [x, 15] s t ∧ KeepsAllBut [.v] s t := by
  refine ⟨_, h, fun hx => ?_, ?_, (frame_setResultFlag s x r f).regs, (frame_setResultFlag s x r f).parts⟩
  · rw [reg_setResultFlag, if_neg hx, if_pos rfl, hr]
  · rw [reg_setResultFlag, if_pos rfl, hf]

/-- CXNN in one write of V[X] and one of the count of random bytes (R133). -/
theorem exec_rnd (x : Reg) (nn : Byte) (s : State) :
    exec (.rnd x nn) s =
      .next ({ s with randDraws := s.randDraws + 1 }.setReg x (Config.randomByte s.randDraws &&& nn)) := rfl

/-! ### The group (R135) -/

theorem exec_alu_completes (hi : i.isAlu = true) (s : State) : ∃ t, exec i s = .next t := by
  cases i with
  | ldImm | addImm | ldReg | orReg | andReg | xorReg | addReg | sub | shr | subn | shl | rnd => exact ⟨_, rfl⟩
  | _ => cases hi

theorem writes_subset_of_isAlu (hi : i.isAlu = true) : i.writes ⊆ [.v, .randDraws] := by
  cases i with
  | rnd => exact List.Subset.refl _
  | ldImm | addImm | ldReg | orReg | andReg | xorReg | addReg | sub | shr | subn | shl => simp [Instr.writes]
  | _ => cases hi

end Sys2Proof.Machine
end

section
open Sys2Proof Sys2Proof.Machine

/-- Settles O19: each of the twelve answers, and what R39 lets it write lies within V and the count of random bytes. -/
theorem aluGroupTouchesRegistersOnly : Obligations.AluGroupTouchesRegistersOnly := by
  intro i s hi
  obtain ⟨t, h⟩ := exec_alu_completes hi s
  exact ⟨t, h, ((exec_frame h).mono (writes_subset_of_isAlu hi) (List.Subset.refl _)).parts⟩

/-- Settles O13: each is one write of V[X]. -/
theorem loadAddImmediateAndCopy : Obligations.LoadAddImmediateAndCopy := by
  refine ⟨encodes_row (.ldImm 0 0), encodes_row (.addImm 0 0), encodes_row (.ldReg 0 0),
    fun x y nn s => ⟨exec_setReg_spec rfl, ?_, exec_setReg_spec rfl⟩⟩
  obtain ⟨t, h, hsum, hframe⟩ := exec_setReg_spec (i := .addImm x nn) (s := s) rfl
  exact ⟨t, h, by rw [hsum, BitVec.toNat_add], hframe⟩

/-- Settles O14: each is one write of V[X], by an operation on words whose bits are the operation on their bits. -/
theorem bitwiseOperationsBitByBit : Obligations.BitwiseOperationsBitByBit := by
  refine ⟨encodes_row (.orReg 0 0), encodes_row (.andReg 0 0), encodes_row (.xorReg 0 0),
    fun x y s => ⟨?_, ?_, ?_⟩⟩
  · obtain ⟨t, h, hor, hframe⟩ := exec_setReg_spec (i := .orReg x y) (s := s) rfl
    exact ⟨t, h, fun k _ => by rw [hor, BitVec.getLsbD_or], hframe⟩
  · obtain ⟨t, h, hand, hframe⟩ := exec_setReg_spec (i := .andReg x y) (s := s) rfl
    exact ⟨t, h, fun k _ => by rw [hand, BitVec.getLsbD_and], hframe⟩
  · obtain ⟨t, h, hxor, hframe⟩ := exec_setReg_spec (i := .xorReg x y) (s := s) rfl
    exact ⟨t, h, fun k _ => by rw [hxor, BitVec.getLsbD_xor], hframe⟩

/-- Settles O15: both operands are read before the sum and the flag are written. -/
theorem addSetsTheCarry : Obligations.AddSetsTheCarry :=
  ⟨encodes_row (.addReg 0 0), fun _ _ _ => exec_setResultFlag_spec rfl (BitVec.toNat_add ..) (toNat_carryFlag _ _)⟩

/-- Settles O16: 8XY7 is 8XY5 with the operands the other way round and the same destination. -/
theorem subtractionsSetNotBorrow : Obligations.SubtractionsSetNotBorrow :=
  ⟨encodes_row (.sub 0 0), encodes_row (.subn 0 0), fun _ _ _ =>
    ⟨exec_setResultFlag_spec rfl (toNat_sub_byte _ _) (toNat_noBorrowFlag _ _),
      exec_setResultFlag_spec rfl (toNat_sub_byte _ _) (toNat_noBorrowFlag _ _)⟩⟩

/-- Settles O17: under either setting the shifted value is one byte, halved or doubled, and its bit 0 or 7 is the
flag. -/
theorem shiftsMoveOneBitIntoVf : Obligations.ShiftsMoveOneBitIntoVf := by
  refine ⟨encodes_row (.shr 0 0), encodes_row (.shl 0 0), fun x y s a ha => ?_⟩
  have hsource : a = (s.shiftSource x y).toNat := by rw [ha, State.shiftSource, apply_ite BitVec.toNat]
  subst hsource
  exact ⟨exec_setResultFlag_spec rfl (toNat_shiftRight_one _) (toNat_shiftedOutRight _),
    exec_setResultFlag_spec rfl (toNat_shiftLeft_one _) (toNat_shiftedOutLeft _)⟩

/-- Settles O18: a bit that NN lacks is cleared by the AND, whatever the source gives. -/
theorem randomByteIsMasked : Obligations.RandomByteIsMasked := by
  refine ⟨encodes_row (.rnd 0 0), fun x nn s => ⟨_, exec_rnd x nn s, ?_⟩⟩
  have hframe := exec_frame (exec_rnd x nn s)
  exact ⟨by simp, fun k hk => by simp [hk], rfl, hframe.regs, hframe.parts⟩

end

section
/-! SUPPORT. Index register and memory transfer (spec/42_index_memory.md), forwards: what each instruction answers on
each side of its check, and what I and memory then hold. -/

namespace Sys2Proof.Machine

variable {s : State} {x : Reg}

/-! ### Answers -/

/-- FX1E up to 0xFFFF (R152). -/
theorem exec_addI_of_le (h : s.index.toNat + (s.reg x).toNat ≤ 0xFFFF) :
    exec (.addI x) s =
      .next ((s.setIndex (BitVec.ofNat 16 (s.index.toNat + (s.reg x).toNat))).indexFlag
        (s.index.toNat + (s.reg x).toNat)) :=
  if_neg (Nat.not_lt.2 h)

/-- FX1E above 0xFFFF (R152, decision D9). -/
theorem exec_addI_of_lt (h : 0xFFFF < s.index.toNat + (s.reg x).toNat) :
    exec (.addI x) s = .next (s.raise .outOfBoundsAccess) :=
  if_pos h

/-- FX33 past the end of memory (R151, R154). -/
theorem exec_ldB_of_le (h : 4096 ≤ s.indexed 2) : exec (.ldB x) s = .next (s.raise .outOfBoundsAccess) :=
  guardAddress_of_le s _ h

/-- FX55 past the end of memory (R151, R157). -/
theorem exec_stRegs_of_le (h : 4096 ≤ s.transferTop x) :
    exec (.stRegs x) s = .next (s.raise .outOfBoundsAccess) :=
  guardAddress_of_le s _ h

/-- FX65 inside memory (R156). -/
theorem exec_ldRegs_of_lt (h : s.transferTop x < 4096) :
    exec (.ldRegs x) s = .next ((s.loadRegs x s.index.toNat).setIndex (s.indexAfterTransfer x)) :=
  guardAddress_of_lt s _ h

/-- FX65 past the end of memory (R151, R157). -/
theorem exec_ldRegs_of_le (h : 4096 ≤ s.transferTop x) :
    exec (.ldRegs x) s = .next (s.raise .outOfBoundsAccess) :=
  guardAddress_of_le s _ h

/-! ### I -/

/-- The check of a transfer keeps its legacy advance within 16 bits (R157, decision D10). -/
theorem toNat_indexAfterTransfer (h : s.transferTop x < 4096) :
    (s.indexAfterTransfer x).toNat =
      s.index.toNat + if s.cfg.legacyStoreLoadAdvancesIndex then x.val + 1 else 0 := by
  rw [State.transferTop, State.indexed] at h
  rw [State.indexAfterTransfer, State.indexed]
  split
  · next hadv =>
    rw [if_pos hadv] at h
    rw [BitVec.toNat_ofNat, Nat.mod_eq_of_lt (by omega)]
  · rfl

/-- What FX1E writes where it completes: I and VF. -/
theorem frame_setIndex_indexFlag (s : State) (a : Word) (sum : Nat) :
    Frame [.index, .v] [15] s ((s.setIndex a).indexFlag sum) :=
  (frame_setIndex s a).trans (frame_indexFlag _ sum)

/-! ### Memory -/

/-- A run of bytes stored leaves the addresses before and after it (R54, R56). -/
theorem byteAt_storeBytes_of_outside {a b : Nat} {xs : List Byte} (h : b < a ∨ a + xs.length ≤ b) :
    (s.storeBytes a xs).byteAt b = s.byteAt b := by
  rw [byteAt_storeBytes, dif_neg (by omega)]

/-- Each digit FX33 stores reads back as the number it is (R154). -/
theorem toNat_byteAt_storeBytes_bcdDigits {b : Byte} {a k digit : Nat}
    (h : (k, digit) ∈ [(0, b.toNat / 100), (1, b.toNat / 10 % 10), (2, b.toNat % 10)]) :
    ((s.storeBytes a (bcdDigits b)).byteAt (a + k)).toNat = digit := by
  obtain ⟨d, hd, rfl⟩ := bcdDigits_getElem?_of_mem h
  rw [byteAt_storeBytes_of_getElem? hd]

end Sys2Proof.Machine
end

section
open Sys2Proof Sys2Proof.Machine

/-- Settles O24, on either side of the check: the run of bytes stored is V0 to VX, X + 1 of them. -/
theorem storeRegistersAtIndex : Obligations.StoreRegistersAtIndex := by
  refine ⟨encodes_row (.stRegs 0), fun x s last hlast => ?_⟩
  rw [← transferTop_eq] at hlast
  subst hlast
  refine ⟨fun hfits => ⟨_, exec_stRegs_of_lt hfits, fun k hk => ?_, fun a ha => ?_, ?_, ?_⟩, exec_stRegs_of_le⟩
  · rw [byteAt_setIndex, byteAt_storeBytes_of_getElem? (regsThrough_getElem?_of_le hk)]
  · rw [byteAt_setIndex, byteAt_storeBytes_of_outside]
    rw [length_regsThrough]
    omega
  · exact toNat_indexAfterTransfer hfits
  · exact ((frame_storeBytes s _ _).trans (frame_setIndex _ _)).parts

/-- Settles O25, on either side of the check: the registers up to X are read from memory, the others kept. -/
theorem loadRegistersFromIndex : Obligations.LoadRegistersFromIndex := by
  refine ⟨encodes_row (.ldRegs 0), fun x s last hlast => ?_⟩
  rw [← transferTop_eq] at hlast
  subst hlast
  refine ⟨fun hfits => ⟨_, exec_ldRegs_of_lt hfits, fun k hk => ?_, fun k hk => ?_, ?_, ?_⟩, exec_ldRegs_of_le⟩
  · rw [reg_setIndex, reg_loadRegs, if_pos (Fin.le_def.1 hk)]
  · rw [reg_setIndex, reg_loadRegs, if_neg (Nat.not_le.2 hk)]
  · exact toNat_indexAfterTransfer hfits
  · exact ((frame_loadRegs s x _).trans (frame_setIndex _ _)).parts

/-- Settles O26: the store leaves I and the configuration, so the load reads the very bytes stored. -/
theorem loadBringsBackWhatStoreSaved : Obligations.LoadBringsBackWhatStoreSaved := by
  intro x s hadv hblock
  obtain ⟨t, hstore, hbytes, -, hindex, hkeeps⟩ :=
    (storeRegistersAtIndex.2 x s _ rfl).1 (by simpa [hadv] using hblock)
  have hadvT : t.cfg.legacyStoreLoadAdvancesIndex = false := by rw [hkeeps .cfg (by simp), hadv]
  have hindexT : t.index = s.index := BitVec.eq_of_toNat_eq (by simpa [hadv] using hindex)
  refine ⟨t, hstore, fun v' => ?_⟩
  obtain ⟨u, hload, hregs, -, hindexU, -⟩ :=
    (loadRegistersFromIndex.2 x { t with v := v' } _ rfl).1 (by simpa [hadvT, hindexT] using hblock)
  refine ⟨u, hload, fun k hk => ?_, BitVec.eq_of_toNat_eq (by simpa [hadvT, hindexT] using hindexU)⟩
  calc u.reg k = t.byteAt (t.index.toNat + k.val) := hregs k hk
    _ = s.reg k := by rw [hindexT, hbytes k hk]

/-- Settles O20: each is one write of I, by an address that 16 bits hold. -/
theorem indexLoads : Obligations.IndexLoads :=
  ⟨encodes_row (.ldI 0), encodes_row (.ldF 0), fun nnn x s =>
    ⟨⟨s.setIndex (addrWord nnn), rfl, toNat_addrWord nnn, (frame_setIndex s _).parts⟩,
      ⟨s.setIndex (glyphAddress (s.reg x)), rfl, toNat_glyphAddress _, (frame_setIndex s _).parts⟩⟩⟩

/-- Settles O21, on either side of 0xFFFF: V[X] is read before the flag is written, so X = 15 is no case of its own. -/
theorem addToIndexStoresOrFaults : Obligations.AddToIndexStoresOrFaults := by
  refine ⟨encodes_row (.addI 0), fun x s sum hsum => ?_⟩
  subst hsum
  refine ⟨fun hfits => ⟨_, exec_addI_of_le hfits, ?_, ?_, (frame_setIndex_indexFlag s _ _).regs,
    (frame_setIndex_indexFlag s _ _).parts⟩, exec_addI_of_lt⟩
  · rw [indexFlag_index, setIndex_index, BitVec.toNat_ofNat, Nat.mod_eq_of_lt (by omega)]
  · rw [reg_indexFlag, setIndex_cfg, setIndex_params, reg_setIndex]
    cases s.cfg.indexOverflowFlag <;> simp

/-- Settles O23, on either side of the check: the run of bytes stored is the three digits. -/
theorem decimalDigitsAreStored : Obligations.DecimalDigitsAreStored := by
  refine ⟨encodes_row (.ldB 0), fun x s => ⟨fun hfits =>
    ⟨_, exec_ldB_of_lt hfits, ?_, ?_, ?_, fun a ha => ?_, (frame_storeBytes s _ _).parts⟩,
    fun hpast => ⟨_, _, exec_ldB_of_le hpast, raise_run s _, raise_frame s _⟩⟩⟩
  · exact toNat_byteAt_storeBytes_bcdDigits (k := 0) (by simp)
  · exact toNat_byteAt_storeBytes_bcdDigits (by simp)
  · exact toNat_byteAt_storeBytes_bcdDigits (by simp)
  · apply byteAt_storeBytes_of_outside
    rw [length_bcdDigits]
    omega

end

section
/-! SUPPORT. The display instructions (spec/43_display.md), forwards: what a draw answers on each side of its check, what
VF then holds, and when two draws, or two framebuffers, are the same. -/

namespace Sys2Proof.Machine

variable {s t : State} {x y : Reg} {n : Nibble}

/-! ### Framebuffers -/

/-- The framebuffer 00E0 writes (R170). -/
theorem screenPixel_replicate_zero (px py : Nat) : screenPixel (Vector.replicate 32 0) px py = false := by
  unfold screenPixel
  split
  · rw [Vector.getElem_replicate, BitVec.ofNat_eq_ofNat, BitVec.getLsbD_zero]
  · rfl

/-- A framebuffer is its pixels on the screen (R32). -/
theorem screen_ext {fb fb' : Screen}
    (h : ∀ px py, OnScreen px py → screenPixel fb px py = screenPixel fb' px py) : fb = fb' := by
  ext py hpy px hpx
  have hpixel := h px py ⟨hpx, hpy⟩
  rwa [screenPixel, screenPixel, dif_pos hpy, dif_pos hpy] at hpixel

/-! ### Answers -/

/-- DXYN's check passes where its last byte is in memory, or where it has no rows (R171, decision D11). -/
theorem spriteTop_lt_iff : s.spriteTop n < 4096 ↔ n.toNat = 0 ∨ s.index.toNat + n.toNat - 1 < 4096 := by
  unfold State.spriteTop State.indexed
  split <;> omega

/-- DXYN inside memory (R171). -/
theorem exec_drw_of_lt (h : s.spriteTop n < 4096) : exec (.drw x y n) s = .next (s.drawSprite x y n) :=
  guardAddress_of_lt s _ h

/-- DXYN past the end of memory (R171, decision D11). -/
theorem exec_drw_of_le (h : 4096 ≤ s.spriteTop n) : exec (.drw x y n) s = .next (s.raise .outOfBoundsAccess) :=
  guardAddress_of_le s _ h

/-! ### VF (R171) -/

theorem vf_drawSprite_of_collides (h : s.Collides x y n) : (s.drawSprite x y n).reg 15 = 1 := by
  classical rw [reg_drawSprite, if_pos rfl, if_pos h]

theorem vf_drawSprite_of_not_collides (h : ¬s.Collides x y n) : (s.drawSprite x y n).reg 15 = 0 := by
  classical rw [reg_drawSprite, if_pos rfl, if_neg h]

/-! ### The same sprite at the same place (R173) -/

/-- A sprite is its start column and row, and the bytes from I on. -/
theorem spriteBit_congr (hx : (t.reg x).toNat % 64 = (s.reg x).toNat % 64)
    (hy : (t.reg y).toNat % 32 = (s.reg y).toNat % 32) (hindex : t.index = s.index)
    (hmem : ∀ a, t.byteAt a = s.byteAt a) (px py : Nat) : t.spriteBit x y n px py = s.spriteBit x y n px py := by
  simp only [State.spriteBit, hx, hy, hindex, hmem]

/-- On the picture one draw has left, the same sprite collides exactly where it covers a pixel that was off. -/
theorem collides_iff_covers_off (hbit : ∀ px py, t.spriteBit x y n px py = s.spriteBit x y n px py)
    (hpixel : ∀ px py, OnScreen px py → t.pixel px py = (s.pixel px py ^^ s.spriteBit x y n px py)) :
    t.Collides x y n ↔ ∃ px py, OnScreen px py ∧ s.spriteBit x y n px py = true ∧ s.pixel px py = false := by
  refine exists_congr fun px => exists_congr fun py => and_congr_right fun hon => ?_
  rw [hbit]
  refine and_congr_right fun hset => ?_
  rw [hpixel px py hon, hset, Bool.xor_true, Bool.not_eq_true']

end Sys2Proof.Machine
end

section
open Sys2Proof Sys2Proof.Machine

/-- Settles O29: in memory the answer is the sprite drawn, whose picture and flag the draw loops' closed form gives. -/
theorem drawTogglesTheClippedSprite : Obligations.DrawTogglesTheClippedSprite :=
  ⟨encodes_row (.drw 0 0 0), fun x y n s hfits =>
    ⟨s.drawSprite x y n, exec_drw_of_lt (spriteTop_lt_iff.2 hfits), pixel_drawSprite s x y n, vf_drawSprite_of_collides,
      vf_drawSprite_of_not_collides, drawSprite_signals s x y n, (frame_drawSprite s x y n).regs,
      ((frame_drawSprite s x y n).mono (by simp) (List.Subset.refl _)).parts⟩⟩

/-- Settles O31: the first draw leaves I and memory, so the second toggles the very pixels that the first did. -/
theorem drawingTwiceRestoresThePicture : Obligations.DrawingTwiceRestoresThePicture := by
  intro x y n s t hfits hdraw hx hy
  obtain ⟨t', hdraw', hpixel, -, -, -, -, hkeeps⟩ := drawTogglesTheClippedSprite.2 x y n s hfits
  obtain rfl : t = t' := Host.Outcome.next.inj (hdraw.symm.trans hdraw')
  have hindex : t.index = s.index := hkeeps .index (by simp)
  have hbit : ∀ px py, t.spriteBit x y n px py = s.spriteBit x y n px py :=
    spriteBit_congr hx hy hindex (hkeeps .mem (by simp))
  obtain ⟨u, hredraw, hpixel', hcollides, hclear, -⟩ :=
    drawTogglesTheClippedSprite.2 x y n t (by rwa [hindex])
  rw [collides_iff_covers_off hbit hpixel] at hcollides hclear
  refine ⟨u, hredraw, screen_ext fun px py hon => ?_, hcollides, fun hall => hclear ?_⟩
  · calc u.pixel px py
      _ = (s.pixel px py ^^ s.spriteBit x y n px py ^^ s.spriteBit x y n px py) := by
        rw [hpixel' px py hon, hpixel px py hon, hbit]
      _ = s.pixel px py := by rw [Bool.xor_assoc, Bool.xor_self, Bool.xor_false]
  · rintro ⟨px, py, hon, hset, hoff⟩
    exact Bool.false_ne_true (hoff.symm.trans (hall px py hon hset))

/-- Settles O28: it is one write of the framebuffer. -/
theorem clearTurnsEveryPixelOff : Obligations.ClearTurnsEveryPixelOff :=
  ⟨encodes_row .cls, fun s => ⟨_, rfl, screenPixel_replicate_zero, (frame_fb s _).parts⟩⟩

/-- Settles O30: the check is of the last row's byte, whether or not that row is on the screen. -/
theorem drawOutsideMemoryHalts : Obligations.DrawOutsideMemoryHalts := by
  intro x y n s hrows hpast
  refine exec_drw_of_le (Nat.not_lt.1 ?_)
  rw [spriteTop_lt_iff]
  omega

end

section
/-! SUPPORT. The key and timer instructions (spec/44_keys_timers.md), forwards: what each answers with its key down, up
or out of range. -/

namespace Sys2Proof.Machine

variable {s : State} {x : Reg}

/-! ### Key tests -/

/-- EX9E and EXA1 test the key of V[X]'s low nibble where the policy lets them (R186, decision D14). -/
theorem keyNumber_of_allowed {b : Byte} (h : s.params.keyIndexPolicy = .mask4 ∨ b.toNat ≤ 15) :
    s.keyNumber b = some (lowKey b) := by
  rw [keyNumber_eq, if_neg]
  rintro ⟨hfault, hbig⟩
  rcases h with hmask | hsmall
  · simp [hmask] at hfault
  · omega

theorem pressed_lowKey (s : State) (b : Byte) : s.pressed (lowKey b) = s.key.getLsbD (b.toNat % 16) := by
  rw [State.pressed, val_lowKey]

/-- EX9E where V[X] selects a key (R180). -/
theorem exec_skp_of_key {k : Fin 16} (h : s.keyNumber (s.reg x) = some k) :
    exec (.skp x) s = .next (s.skipIf (s.pressed k)) := by
  change execSkp x s = _
  rw [execSkp, h]

/-- EX9E where it selects none (R186). -/
theorem exec_skp_of_none (h : s.keyNumber (s.reg x) = none) : exec (.skp x) s = .next (s.raise .badKeyIndex) := by
  change execSkp x s = _
  rw [execSkp, h]

/-- EXA1 where V[X] selects a key (R181). -/
theorem exec_sknp_of_key {k : Fin 16} (h : s.keyNumber (s.reg x) = some k) :
    exec (.sknp x) s = .next (s.skipIf (!s.pressed k)) := by
  change execSknp x s = _
  rw [execSknp, h]

/-- EXA1 where it selects none (R186). -/
theorem exec_sknp_of_none (h : s.keyNumber (s.reg x) = none) : exec (.sknp x) s = .next (s.raise .badKeyIndex) := by
  change execSknp x s = _
  rw [execSknp, h]

/-! ### FX0A -/

@[simp] theorem toNat_keyCode (k : Fin 16) : (keyCode k).toNat = k.val := by
  rw [keyCode, BitVec.toNat_ofNat, Nat.mod_eq_of_lt (by omega)]

/-- A key's code, stored in a register, reads back as the key's number (R182). -/
theorem toNat_reg_setReg_keyCode (s : State) (x : Reg) (k : Fin 16) :
    ((s.setReg x (keyCode k)).reg x).toNat = k.val := by
  rw [reg_setReg, if_pos rfl, toNat_keyCode]

/-- FX0A with no key down goes back to itself (R182). -/
theorem exec_ldVxK_of_released (h : s.key = 0#16) : exec (.ldVxK x) s = .next (s.setPc (s.pc - 2)) := by
  change execLdVxK x s = _
  rw [execLdVxK, (pressedKeys_eq_nil s).2 h]

/-- FX0A with a key down stores the one chosen (R182). -/
theorem exec_ldVxK_of_pressed {k : Fin 16} {ks : List (Fin 16)} (h : s.pressedKeys = k :: ks) :
    exec (.ldVxK x) s = .next ((s.chooseKey k ks).2.setReg x (keyCode (s.chooseKey k ks).1)) := by
  change execLdVxK x s = _
  rw [execLdVxK, h]

/-- FX0A's choice is a key that is down (R182). -/
theorem pressed_chooseKey {k : Fin 16} {ks : List (Fin 16)} (h : s.pressedKeys = k :: ks) :
    s.pressed (s.chooseKey k ks).1 = true := by
  rw [← mem_pressedKeys, h]
  exact (chooseKey_spec s).1

/-- Under the policy `lowest` no key below FX0A's choice is down (R182). -/
theorem released_below_chooseKey {k : Fin 16} {ks : List (Fin 16)} (h : s.pressedKeys = k :: ks)
    (hlow : s.params.fx0aKeyChoice = .lowest) {j : Nat} (hj : j < (s.chooseKey k ks).1.val) :
    s.key.getLsbD j = false := by
  rw [(chooseKey_spec s).2.1 hlow] at hj
  refine Bool.eq_false_iff.2 fun hdown => ?_
  have hle : k ≤ ⟨j, hj.trans k.isLt⟩ := pressedKeys_head_le s h _ hdown
  exact absurd hj (Nat.not_lt.2 hle)

/-- What FX0A writes where it stores a key. -/
theorem frame_chooseKey_setReg (s : State) (k : Fin 16) (ks : List (Fin 16)) (x : Reg) (b : Byte) :
    Frame [.v, .keyDraws] [x] s ((s.chooseKey k ks).2.setReg x b) :=
  ((frame_chooseKey s k ks).trans (frame_setReg _ x b)).mono (by simp) (by simp)

/-! ### Sound -/

/-- The sound is on where ST is not 0 (R219). -/
theorem soundOn_iff (s : State) : s.soundOn = true ↔ s.st ≠ 0 := by
  rw [State.soundOn, decide_eq_true_iff]
  bv_omega

end Sys2Proof.Machine
end

section
/-! SUPPORT. A machine that waits at an FX0A while no key is down (spec/44_keys_timers.md R182): a step of it, whether
an instruction step or a frame tick, leaves it waiting. -/

namespace Sys2Proof.Machine

variable {s t : State} {x : Reg}

/-! ### Frames of the events -/

theorem Part.same_refl (p : Part) (s : State) : p.same s s := by
  cases p with
  | mem => exact fun _ => rfl
  | _ => rfl

/-- A part that turns out the same need not be named. -/
theorem KeepsAllBut.erase {ps : List Part} {p : Part} (h : KeepsAllBut ps s t) (hp : p.same s t) :
    KeepsAllBut (ps.erase p) s t := fun q hq => by
  by_cases hqp : q = p
  · rwa [hqp]
  · exact h q fun hmem => hq ((List.mem_erase_of_ne hqp).2 hmem)

theorem frame_rem (s : State) (n : Nat) : Frame [.rem] [] s { s with rem := n } :=
  .of_parts (by simp) (fun p hp => by cases p <;> simp_all [Part.same, State.byteAt, State.background]) fun _ => rfl

theorem frame_endOfBatch (s : State) : Frame [.signals] [] s s.endOfBatch :=
  .of_parts (by simp) (fun p hp => by cases p <;> simp_all [Part.same]) fun _ => endOfBatch_mem s

theorem frame_frameTick (s : State) : Frame [.dt, .st, .key, .rem, .signals] [] s (frameTick s) := by
  rw [frameTick_eq]
  exact .of_parts (by simp) (fun p hp => by cases p <;> simp_all [Part.same, State.byteAt, State.background])
    fun _ => rfl

/-! ### Steps and runs -/

theorem unhalted_of_running (h : s.run = .running) : s.Unhalted := by
  simp [State.Unhalted, State.isHalted, h]

/-- The instruction step on a word that decodes, where its execute phase answers a next state (R201). -/
theorem instrStep_of_exec {i : Instr} (hpc : s.pc.toNat + 1 < 4096)
    (hword : decodeWord (s.byteAt s.pc.toNat ++ s.byteAt (s.pc.toNat + 1)) = .ok i)
    (hexec : exec i s.fetched = .next t) : instrStep s = .next t.endOfBatch := by
  have hdec : decode s.fetchBytes = .ok (i, []) := by
    rw [decode_fetchBytes, wordOfBytes, hword]
    rfl
  rw [instrStep, if_neg (by omega), hdec]
  simp only [hexec]

/-- What holds of a state, and of a next state after each state it holds of, is reached by a run of any length. -/
theorem exists_run_of_step_keeps {P : State → Prop} (hstep : ∀ t, P t → ∃ u, step t = .next u ∧ P u) (n : Nat)
    (hs : P s) : ∃ t, Sys2Proof.core.run n s = .next t ∧ P t := by
  induction n generalizing s with
  | zero => exact ⟨s, run_zero s, hs⟩
  | succ n ih =>
    obtain ⟨t, ht, hPt⟩ := hstep s hs
    rw [run_succ_of_next n ht]
    exact ih hPt

/-! ### Waiting for a key -/

/-- A running machine at an FX0A in memory, the host silent and no key down in the snapshot or at the inputs. -/
structure WaitsForKey (x : Reg) (s : State) : Prop where
  host : s.host = []
  run : s.run = .running
  key : s.key = 0#16
  keyIn : s.keyIn = 0#16
  pcInMemory : s.pc.toNat + 1 < 4096
  word : decodeWord (s.byteAt s.pc.toNat ++ s.byteAt (s.pc.toNat + 1)) = .ok (.ldVxK x)

/-- The parts that change while a machine waits for a key. -/
def waitWrites : List Part := [.dt, .st, .rem, .signals]

/-- Waiting is of the parts that a waiting machine keeps. -/
theorem WaitsForKey.of_keeps (hs : WaitsForKey x s) (h : KeepsAllBut waitWrites s t) : WaitsForKey x t := by
  have hpc : t.pc = s.pc := h .pc (by simp [waitWrites])
  have hmem : ∀ a, t.byteAt a = s.byteAt a := h .mem (by simp [waitWrites])
  exact {
    host := (h .host (by simp [waitWrites])).trans hs.host
    run := (h .run (by simp [waitWrites])).trans hs.run
    key := (h .key (by simp [waitWrites])).trans hs.key
    keyIn := (h .keyIn (by simp [waitWrites])).trans hs.keyIn
    pcInMemory := hpc ▸ hs.pcInMemory
    word := by rw [hpc, hmem, hmem]; exact hs.word }

/-- The fetch's advance taken back: of the whole instruction step the count alone is left (R182, R201). -/
theorem setPc_fetched_rewind (s : State) : s.fetched.setPc (s.fetched.pc - 2) = { s with rem := s.rem - 1 } := by
  rw [fetched_pc, BitVec.add_sub_cancel]
  rfl

/-- Inside a batch a waiting machine runs its FX0A again, which costs one of REM. -/
theorem instrStep_of_waits (hs : WaitsForKey x s) :
    instrStep s = .next { s with rem := s.rem - 1 }.endOfBatch := by
  rw [← setPc_fetched_rewind]
  exact instrStep_of_exec hs.pcInMemory hs.word (exec_ldVxK_of_released hs.key)

/-- Between frames a tick samples the inputs, with no key down there either. -/
theorem frameTick_keeps_waiting (hs : WaitsForKey x s) : KeepsAllBut waitWrites s (frameTick s) := by
  have hkey : (frameTick s).key = s.key := by rw [frameTick_eq, hs.keyIn, hs.key]
  exact (frame_frameTick s).parts.erase (p := .key) hkey

/-- A waiting machine steps, and keeps all that makes it wait. -/
theorem step_keeps_waiting (hs : WaitsForKey x s) : ∃ t, step s = .next t ∧ KeepsAllBut waitWrites s t := by
  by_cases hrem : s.rem = 0
  · exact ⟨_, step_between_frames hs.host hs.run hrem, frameTick_keeps_waiting hs⟩
  · refine ⟨_, (step_in_batch hs.host hs.run hrem).trans (instrStep_of_waits hs), ?_⟩
    exact (((frame_rem s _).trans (frame_endOfBatch _)).mono (by simp [waitWrites]) (List.Subset.refl _)).parts

/-- So does a run of it, of any length. -/
theorem run_keeps_waiting (hs : WaitsForKey x s) (n : Nat) :
    ∃ t, Sys2Proof.core.run n s = .next t ∧ KeepsAllBut waitWrites s t := by
  refine exists_run_of_step_keeps (P := KeepsAllBut waitWrites s) (fun t hst => ?_) n fun p _ => Part.same_refl p s
  obtain ⟨u, hstep, htu⟩ := step_keeps_waiting (hs.of_keeps hst)
  exact ⟨u, hstep, fun p hp => Part.same_trans (hst p hp) (htu p hp)⟩

end Sys2Proof.Machine
end

section
open Sys2Proof Sys2Proof.Machine

/-- Settles O43: waiting for a key is kept by the FX0A run again and by the frame tick, so by any number of steps. -/
theorem waitForKeyNeverAdvancesWithoutAKey : Obligations.WaitForKeyNeverAdvancesWithoutAKey := by
  intro s x hhost hrun hkey hkeyIn hpc hword n
  obtain ⟨t, hreach, hkeeps⟩ := run_keeps_waiting ⟨hhost, hrun, hkey, hkeyIn, hpc, hword⟩ n
  have hrunT : t.run = .running := (hkeeps .run (by simp [waitWrites])).trans hrun
  refine ⟨⟨t, hreach, unhalted_of_running hrunT⟩, fun u hu => ?_⟩
  obtain rfl : t = u := Host.Outcome.next.inj (hreach.symm.trans hu)
  exact ⟨hkeeps .pc (by simp [waitWrites]), hkeeps⟩

/-- Settles O32, on either side of the policy's check: EX9E skips on the bit of the snapshot, EXA1 on its negation. -/
theorem keySkipsTestTheSnapshot : Obligations.KeySkipsTestTheSnapshot := by
  refine ⟨encodes_row (.skp 0), encodes_row (.sknp 0), fun x s => ⟨fun hallowed => ?_, fun hbad => ?_⟩⟩
  · have hkey := keyNumber_of_allowed hallowed
    refine ⟨exec_skip_spec (exec_skp_of_key hkey) ?_, exec_skip_spec (exec_sknp_of_key hkey) ?_⟩
    · rw [pressed_lowKey]
    · rw [pressed_lowKey, Bool.not_eq_true']
  · have hnone : s.keyNumber (s.reg x) = none := by rw [keyNumber_eq, if_pos hbad]
    exact ⟨exec_skp_of_none hnone, exec_sknp_of_none hnone⟩

/-- Settles O33, by whether the list of pressed keys has a first. -/
theorem waitForKeyRewindsOrTakesAKey : Obligations.WaitForKeyRewindsOrTakesAKey := by
  refine ⟨encodes_row (.ldVxK 0), fun x s => ⟨fun hnone => ?_, fun hsome => ?_⟩⟩
  · exact ⟨_, exec_ldVxK_of_released hnone, rfl, (frame_setPc s _).parts⟩
  · obtain ⟨k, ks, hks⟩ := List.exists_cons_of_ne_nil (mt (pressedKeys_eq_nil s).1 hsome)
    have hreg := toNat_reg_setReg_keyCode (s.chooseKey k ks).2 x (s.chooseKey k ks).1
    have hframe := frame_chooseKey_setReg s k ks x (keyCode (s.chooseKey k ks).1)
    refine ⟨_, exec_ldVxK_of_pressed hks, hreg.trans_lt (Fin.isLt _), ?_, fun hlow j hj => ?_, hframe.regs,
      hframe.parts⟩
    · rw [hreg]
      exact pressed_chooseKey hks
    · exact released_below_chooseKey hks hlow (hj.trans_eq hreg)

/-- Settles O34: each is one write, and the sound output is on exactly where ST is not 0. -/
theorem timerTransfers : Obligations.TimerTransfers :=
  ⟨encodes_row (.ldVxDt 0), encodes_row (.ldDtVx 0), encodes_row (.ldStVx 0), fun x s =>
    ⟨exec_setReg_spec rfl, ⟨_, rfl, rfl, (frame_dt s (s.reg x)).parts⟩,
      ⟨_, rfl, rfl, soundOn_iff { s with st := s.reg x }, (frame_st s (s.reg x)).parts⟩⟩⟩

end

section
/-! SUPPORT. What each event of the scheduler leaves alone (spec/45_scheduler_and_host.md R200): frames of what the host
does, and of the instruction step what holds for every instruction. -/

namespace Sys2Proof.Machine

variable {s t : State}

/-! ### Frames of the events -/

theorem KeepsAllBut.mono {ps qs : List Part} (h : KeepsAllBut ps s t) (hp : ps ⊆ qs) : KeepsAllBut qs s t :=
  fun p hq => h p fun hps => hq (hp hps)

theorem frame_host (s : State) (rest : List HostEvent) : Frame [.host] [] s { s with host := rest } :=
  .of_parts (by simp) (fun p hp => by cases p <;> simp_all [Part.same, State.byteAt, State.background]) fun _ => rfl

theorem frame_keyIn (s : State) (b : BitVec 16) : Frame [.keyIn] [] s { s with keyIn := b } :=
  .of_parts (by simp) (fun p hp => by cases p <;> simp_all [Part.same, State.byteAt, State.background]) fun _ => rfl

theorem frame_emit (s : State) (e : Signal) : Frame [.signals] [] s (s.emit e) :=
  .of_parts (by simp) (fun p hp => by cases p <;> simp_all [Part.same]) fun _ => rfl

/-! ### The machine's own turn, forwards -/

theorem machineTurn_in_batch (hr : s.run = .running) (h0 : s.rem ≠ 0) : machineTurn s = instrStep s := by
  simp only [machineTurn, hr, if_neg h0]

theorem machineTurn_between_frames (hr : s.run = .running) (h0 : s.rem = 0) :
    machineTurn s = .next (frameTick s) := by
  simp only [machineTurn, hr, if_pos h0]

/-- In `Idle` the machine has no event of its own, and stays (R208, R211). -/
theorem machineTurn_of_idle (hr : s.run = .idle) : machineTurn s = .next s := by
  simp only [machineTurn, hr]

/-- A halted machine waits while the host's list holds something (log entry 7). -/
theorem machineTurn_of_halted {k : ErrorKind} {p : Word} (hr : s.run = .halted k p) (hh : s.host ≠ []) :
    machineTurn s = .next s := by
  simp [machineTurn, hr, hh]

/-- A halted machine with a silent host has no next event (R211, log entry 7). -/
theorem machineTurn_of_halted_silent {k : ErrorKind} {p : Word} (hr : s.run = .halted k p) (hh : s.host = []) :
    machineTurn s = .fault (.halted k p) := by
  simp [machineTurn, hr, hh]

/-! ### The instruction step -/

theorem exec_key {i : Instr} (h : exec i s = .next t) : t.key = s.key :=
  (exec_frame h).parts .key (notMem_writes (by simp) i)
theorem exec_keyIn {i : Instr} (h : exec i s = .next t) : t.keyIn = s.keyIn :=
  (exec_frame h).parts .keyIn (notMem_writes (by simp) i)
theorem exec_host {i : Instr} (h : exec i s = .next t) : t.host = s.host :=
  (exec_frame h).parts .host (notMem_writes (by simp) i)

theorem decode_fetchBytes_of_word {i : Instr}
    (h : decodeWord (s.byteAt s.pc.toNat ++ s.byteAt (s.pc.toNat + 1)) = .ok i) :
    decode s.fetchBytes = .ok (i, []) := by
  rw [decode_fetchBytes, wordOfBytes, h]
  rfl

/-- A fetch whose second byte lies outside memory (R201, R233). -/
theorem instrStep_of_fetch_past_end (hpc : 0xFFF ≤ s.pc.toNat) :
    instrStep s = .next ({ s with rem := s.rem - 1 }.raiseAt .outOfBoundsAccess s.pc) := by
  rw [instrStep, if_pos (by omega)]

/-- An instruction step takes one from REM, a faulting one too, and leaves the keys and the host's list (R201). -/
theorem instrStep_batch (h : instrStep s = .next t) :
    t.rem = s.rem - 1 ∧ t.key = s.key ∧ t.keyIn = s.keyIn ∧ t.host = s.host := by
  rcases instrStep_cases h with ⟨-, rfl⟩ | ⟨-, -, rfl⟩ | ⟨i, rest, u, -, -, hu, rfl⟩
  · exact ⟨rfl, rfl, rfl, rfl⟩
  · exact ⟨rfl, rfl, rfl, rfl⟩
  · rw [endOfBatch_rem, endOfBatch_key, endOfBatch_keyIn, endOfBatch_host, exec_rem hu, exec_key hu, exec_keyIn hu,
      exec_host hu]
    exact ⟨rfl, rfl, rfl, rfl⟩

/-! ### The frame tick (R206) -/

theorem toNat_countDown (b : Byte) : (countDown b).toNat = b.toNat - 1 := by
  unfold countDown
  split_ifs with h0
  · simp [h0]
  · bv_omega

theorem frameTick_dt (s : State) : (frameTick s).dt = countDown s.dt := by rw [frameTick_eq]
theorem frameTick_st (s : State) : (frameTick s).st = countDown s.st := by rw [frameTick_eq]
theorem frameTick_key (s : State) : (frameTick s).key = s.keyIn := by rw [frameTick_eq]
theorem frameTick_rem (s : State) : (frameTick s).rem = s.ipf := by rw [frameTick_eq]

/-- An empty batch ends at once, with the frame's render signal (R207). -/
theorem frameTick_signals (s : State) :
    (frameTick s).signals = if s.ipf = 0 then .render :: s.signals else s.signals := by
  unfold frameTick
  split_ifs <;> rfl

/-- Below 60 instructions per second a batch is empty (R204). -/
theorem ipf_eq_zero (h : s.cfg.instructionsPerSecond < 60) : s.ipf = 0 := Nat.div_eq_of_lt h

/-! ### Runs -/

/-- A run with the host silent cannot leave `Idle` or `Halted` (R211). -/
theorem run_of_not_running {n : Nat} (hh : s.host = []) (hr : s.run ≠ .running)
    (h : Sys2Proof.core.run n s = .next t) : t = s := by
  induction n with
  | zero => exact (Host.Outcome.next.inj h).symm
  | succ n ih =>
    obtain ⟨u, hstep, hrest⟩ := run_succ_next h
    rw [step_of_silent hh] at hstep
    rcases machineTurn_cases hstep with ⟨hrun, -⟩ | ⟨hrun, -⟩ | ⟨-, rfl⟩
    · exact absurd hrun hr
    · exact absurd hrun hr
    · exact ih hrest

/-! ### The host -/

theorem getLsbD_setBit (b : BitVec 16) (k : Fin 16) (x : Bool) {j : Nat} (hj : j < 16) :
    (setBit b k x).getLsbD j = if j = k.val then x else b.getLsbD j := by
  have hbit : (1#16 <<< k.val).getLsbD j = decide (j = k.val) := by
    simp only [BitVec.getLsbD_shiftLeft, BitVec.getLsbD_one]
    grind
  cases x with
  | true =>
    rw [setBit, if_pos rfl, BitVec.getLsbD_or, hbit]
    by_cases hjk : j = k.val <;> simp [hjk]
  | false =>
    rw [setBit, if_neg Bool.false_ne_true, BitVec.getLsbD_and, BitVec.getLsbD_not, hbit]
    by_cases hjk : j = k.val <;> simp [hjk, hj]

/-- A load of too many bytes is only reported (R214). -/
theorem perform_of_oversize {rom : List Byte} (h : 3584 < rom.length) (cfg : Cfg) (s : State) :
    (HostEvent.reset rom cfg).perform s = s.emit .loadError := if_pos h

theorem perform_of_fitting {rom : List Byte} (h : ¬3584 < rom.length) (cfg : Cfg) (s : State) :
    (HostEvent.reset rom cfg).perform s = s.loadProgram rom cfg := if_neg h

/-- A host event in `Idle` other than `Start` has `RUN` still `Idle` after it (R208). -/
theorem perform_of_idle {e : HostEvent} (hr : s.run = .idle) (he : e ≠ .start) : (e.perform s).run = .idle := by
  cases e with
  | start => exact absurd rfl he
  | stop => rfl
  | wait | key => exact hr
  | reset rom cfg =>
    by_cases hbig : 3584 < rom.length
    · rw [perform_of_oversize hbig]
      exact hr
    · rw [perform_of_fitting hbig, loadProgram_run]

/-- What happens in `Halted` is a load that fits, or leaves all but the key inputs and the record of signals. -/
theorem perform_of_halted {e : HostEvent} {u : State} {k : ErrorKind} {p : Word} (hr : u.run = .halted k p)
    (he : e.enabled u = true) (s : State) :
    Frame [.keyIn, .signals] [] s (e.perform s) ∨
      ∃ rom cfg, e = .reset rom cfg ∧ rom.length ≤ 3584 ∧ (e.perform s).run = .idle := by
  cases e with
  | wait => exact .inl (.of_parts (by simp) (fun p _ => Part.same_refl p s) fun _ => rfl)
  | key j x => exact .inl ((frame_keyIn s _).mono (by simp) (by simp))
  | start | stop => simp [HostEvent.enabled, State.betweenFrames, hr] at he
  | reset rom cfg =>
    by_cases hbig : 3584 < rom.length
    · rw [perform_of_oversize hbig]
      exact .inl ((frame_emit s _).mono (by simp) (by simp))
    · refine .inr ⟨rom, cfg, rfl, by omega, ?_⟩
      rw [perform_of_fitting hbig, loadProgram_run]

end Sys2Proof.Machine
end

section
open Sys2Proof Sys2Proof.Machine

/-- Settles O41, by induction on the steps: each takes one from REM, and none but the last could have halted, since a
silent host leaves a halted machine where it is. -/
theorem batchRunsExactlyItsSteps : Obligations.BatchRunsExactlyItsSteps := by
  intro n
  induction n with
  | zero =>
    intro s t _ _ _ h _
    cases h
    exact ⟨rfl, rfl, rfl, rfl⟩
  | succ n ih =>
    intro s t hhost hrun hn h hend
    obtain ⟨u, hstep, hrest⟩ := run_succ_next h
    rw [step_in_batch hhost hrun (by omega)] at hstep
    obtain ⟨hrem, hkey, hkeyIn, hhostU⟩ := instrStep_batch hstep
    have hcfg := (instrStep_cfg_params hstep).1
    have hsilent : u.host = [] := hhostU.trans hhost
    have hrunU : u.run = .running := by
      by_contra hstopped
      exact hstopped (run_of_not_running hsilent hstopped hrest ▸ hend)
    obtain ⟨hrem', hkey', hkeyIn', hcfg'⟩ := ih u t hsilent hrunU (by omega) hrest hend
    exact ⟨by omega, hkey'.trans hkey, hkeyIn'.trans hkeyIn, hcfg'.trans hcfg⟩

/-- Settles O42, by induction on the ticks: each leaves the machine between frames with the same configuration. -/
theorem emptyBatchesTickTheTimersDown : Obligations.EmptyBatchesTickTheTimersDown := by
  intro n
  induction n with
  | zero =>
    intro s _ _ _ _
    exact ⟨s, run_zero s, rfl, rfl, rfl, fun p _ => Part.same_refl p s⟩
  | succ n ih =>
    intro s hhost hrun hrem hips
    have hipf : s.ipf = 0 := ipf_eq_zero hips
    have hrem' : (frameTick s).rem = 0 := (frameTick_rem s).trans hipf
    have hkeeps : KeepsAllBut [.dt, .st, .key, .signals] s (frameTick s) :=
      (frame_frameTick s).parts.erase (p := .rem) (hrem'.trans hrem.symm)
    have hcfg : (frameTick s).cfg = s.cfg := hkeeps .cfg (by simp)
    obtain ⟨t, hreach, hdt, hst, hsignals, hkeeps'⟩ := ih (frameTick s) ((hkeeps .host (by simp)).trans hhost)
      ((hkeeps .run (by simp)).trans hrun) hrem' (hcfg ▸ hips)
    rw [frameTick_dt, toNat_countDown] at hdt
    rw [frameTick_st, toNat_countDown] at hst
    rw [frameTick_signals, if_pos hipf] at hsignals
    refine ⟨t, (run_succ_of_next n (step_between_frames hhost hrun hrem)).trans hreach, by omega, by omega, ?_,
      fun p hp => Part.same_trans (hkeeps p hp) (hkeeps' p hp)⟩
    rw [hsignals, List.replicate_succ', List.append_assoc, List.singleton_append]

/-- Settles O49: in `Halted` the machine's own turn changes nothing, and of the host's events only a load has more than
the boundary to change. -/
theorem onlyResetLeavesHalted : Obligations.OnlyResetLeavesHalted := by
  intro s k p hrun
  refine ⟨fun hsilent => (step_of_silent hsilent).trans (machineTurn_of_halted_silent hrun hsilent), fun t h => ?_⟩
  rcases step_cases h with ⟨e, rest, hhost, hguard, rfl, -⟩ | ⟨hs, -, hturn⟩
  · rcases perform_of_halted hrun hguard { s with host := rest } with hframe | ⟨rom, cfg, rfl, hfits, hidle⟩
    · have hkeeps := ((frame_host s rest).trans hframe).parts
      exact .inl ⟨(hkeeps .run (by simp)).trans hrun, hkeeps⟩
    · exact .inr ⟨hidle, rom, cfg, rest, hhost, hfits⟩
  · rcases machineTurn_cases hturn with ⟨hr, -⟩ | ⟨hr, -⟩ | ⟨-, rfl⟩
    · exact absurd (hrun.symm.trans hr) (by simp)
    · exact absurd (hrun.symm.trans hr) (by simp)
    · exact .inl ⟨hrun, (frame_host s hs).parts.mono (by simp)⟩

/-- Settles O50: in `Idle` the machine's own turn changes nothing, and of the host's events `Start` alone leaves it. -/
theorem onlyStartLeavesIdle : Obligations.OnlyStartLeavesIdle := by
  intro s t hrun h
  rcases step_cases h with ⟨e, rest, hhost, -, rfl, -⟩ | ⟨hs, -, hturn⟩
  · by_cases hstart : e = .start
    · subst hstart
      exact .inr ⟨rfl, rest, hhost⟩
    · exact .inl (perform_of_idle (s := { s with host := rest }) hrun hstart)
  · rw [machineTurn_of_idle (s := { s with host := hs }) hrun] at hturn
    cases hturn
    exact .inl hrun

/-- Settles O37: inside a batch the step is the instruction step, whose decoder answers the instruction; what is left is
`fetched` and `endOfBatch` written out. -/
theorem stepRunsTheDecodedInstruction : Obligations.StepRunsTheDecodedInstruction := by
  intro s i hhost hrun hrem hpc hword
  rw [step_in_batch hhost hrun hrem.ne', instrStep, if_neg (by omega), decode_fetchBytes_of_word hword]
  rfl

/-- Settles O38: inside a batch the step is the instruction step, whose fetch faults. -/
theorem fetchPastTheEndHalts : Obligations.FetchPastTheEndHalts := by
  intro s hhost hrun hrem hpc
  rw [step_in_batch hhost hrun hrem.ne', instrStep_of_fetch_past_end hpc]
  rfl

/-- Settles O40: the step is the frame tick. -/
theorem frameTickCountsDownAndSamplesKeys : Obligations.FrameTickCountsDownAndSamplesKeys := by
  intro s hhost hrun hrem
  refine ⟨frameTick s, step_between_frames hhost hrun hrem, ?_, ?_, frameTick_key s, frameTick_rem s,
    frameTick_signals s, (frame_frameTick s).parts⟩
  · rw [frameTick_dt, toNat_countDown]
  · rw [frameTick_st, toNat_countDown]

/-- Settles O44: where the guard holds the request happens, and elsewhere the step is the machine's own turn. -/
theorem startAndStopObeyTheirGuards : Obligations.StartAndStopObeyTheirGuards := by
  intro s rest k p
  refine ⟨fun hhost => ?_, fun hhost => ?_⟩
  · have hpending (hr : s.run ≠ .idle) : step s = machineTurn s :=
      step_of_pending hhost (decide_eq_false hr)
    refine ⟨fun hr => ?_, fun hr hrem => ?_, fun hr hrem => ?_, fun hr => ?_⟩
    · exact step_of_enabled hhost (by simp) (decide_eq_true hr)
    · rw [hpending (by simp [hr]), machineTurn_in_batch hr hrem.ne']
    · rw [hpending (by simp [hr]), machineTurn_between_frames hr hrem]
    · rw [hpending (by simp [hr]), machineTurn_of_halted hr (by simp [hhost])]
  · have hpending (hr : ¬(s.run = .running ∧ s.rem = 0)) : step s = machineTurn s :=
      step_of_pending hhost (decide_eq_false hr)
    refine ⟨fun hr => ?_, fun hr hrem => ?_, fun hr hrem => ?_, fun hr => ?_⟩
    · rw [hpending (by simp [hr]), machineTurn_of_idle hr]
    · rw [hpending (by simp [hrem.ne']), machineTurn_in_batch hr hrem.ne']
    · exact step_of_enabled hhost (by simp) (decide_eq_true ⟨hr, hrem⟩)
    · rw [hpending (by simp [hr]), machineTurn_of_halted hr (by simp [hhost])]

/-- Settles O45: the setter is enabled in every state. -/
theorem keySetterChangesTheInputLevelOnly : Obligations.KeySetterChangesTheInputLevelOnly := by
  intro s k pressed rest hhost
  have hframe := (frame_host s rest).trans (frame_keyIn _ (setBit s.keyIn k pressed))
  exact ⟨_, step_of_enabled hhost (by simp) rfl, fun j hj => getLsbD_setBit s.keyIn k pressed hj, rfl,
    hframe.parts.mono (by simp)⟩

/-- Settles O46: of the load only its report is left. -/
theorem oversizeProgramIsRejected : Obligations.OversizeProgramIsRejected := by
  intro s rom cfg rest hhost hguard hbig
  have hframe := (frame_host s rest).trans (frame_emit _ .loadError)
  have hstep := step_of_enabled hhost (by simp) hguard
  rw [perform_of_oversize hbig] at hstep
  exact ⟨_, hstep, rfl, rfl, hframe.parts.mono (by simp)⟩

end

section
/-! SUPPORT. The table of faults (spec/60_exceptions.md R233): each of its conditions is the check that the instruction
makes, and on each side of the check stands one answer. -/

namespace Sys2Proof.Machine

variable {s : State} {x : Reg} {n : Nibble}

/-! ### The conditions of the table are the checks made -/

/-- DXYN's condition (decision D11). -/
theorem le_spriteTop_iff : 4096 ≤ s.spriteTop n ↔ 1 ≤ n.toNat ∧ 4096 ≤ s.index.toNat + n.toNat - 1 := by
  rw [← Nat.not_lt, spriteTop_lt_iff]
  omega

/-- FX55's and FX65's condition (decision D10). -/
theorem le_transferTop_iff :
    4096 ≤ s.transferTop x ↔ 4096 ≤ s.index.toNat + x.val ∨
      (s.cfg.legacyStoreLoadAdvancesIndex = true ∧ 4096 ≤ s.index.toNat + x.val + 1) := by
  rw [transferTop_eq]
  split
  · next hadv => simp only [hadv, true_and]; omega
  · next hadv => simp [hadv]

/-- EX9E's and EXA1's condition (R186, decision D14). -/
theorem keyNumber_of_rejected {b : Byte} (h : s.params.keyIndexPolicy = .fault ∧ 15 < b.toNat) :
    s.keyNumber b = none :=
  (keyNumber_eq s b).trans (if_pos h)

theorem keyNumber_of_not_rejected {b : Byte} (h : ¬(s.params.keyIndexPolicy = .fault ∧ 15 < b.toNat)) :
    s.keyNumber b = some (lowKey b) :=
  (keyNumber_eq s b).trans (if_neg h)

/-! ### The two answers -/

/-- The answer `r` to the table's entry for the state `s`: without a fault a next state with `RUN` as before, with one
the halt (R232). -/
def AnswersEntry (s : State) (r : Result) : Option ErrorKind → Prop
  | none => ∃ t, r = .next t ∧ t.run = s.run
  | some k => r = .next (s.raise k)

/-- An instruction with one check answers an entry with the same condition. -/
theorem AnswersEntry.of_check {r : Result} {k : ErrorKind} {c : Prop} [Decidable c]
    (hfault : c → r = .next (s.raise k)) (hpass : ¬c → ∃ t, r = .next t ∧ t.run = s.run) :
    AnswersEntry s r (if c then some k else none) := by
  split
  · next hc => exact hfault hc
  · next hc => exact hpass hc

/-- FX0A completes whether or not a key is down (R182). -/
theorem exec_ldVxK_completes (x : Reg) (s : State) : ∃ t, exec (.ldVxK x) s = .next t ∧ t.run = s.run := by
  cases hdown : s.pressedKeys with
  | nil => exact ⟨_, exec_ldVxK_of_released ((pressedKeys_eq_nil s).1 hdown), rfl⟩
  | cons k ks => exact ⟨_, exec_ldVxK_of_pressed hdown, (frame_chooseKey s k ks).parts .run (by simp)⟩

/-- 00EE completes on a stack with a top (R102). -/
theorem exec_ret_completes (h : s.stack ≠ []) : ∃ t, exec .ret s = .next t ∧ t.run = s.run :=
  ⟨_, exec_ret_of_append (List.dropLast_append_getLast h).symm, rfl⟩

/-- Every instruction answers its own entry: those that make a check by the check, the others by completing. -/
theorem exec_answersEntry (i : Instr) (s : State) : AnswersEntry s (exec i s) (i.executeFault s) := by
  cases i with
  | call nnn => exact .of_check exec_call_of_full fun hdepth => ⟨_, exec_call_of_lt (Nat.not_le.1 hdepth), rfl⟩
  | ret =>
    exact .of_check (fun hempty => exec_ret_of_nil (List.length_eq_zero_iff.1 hempty)) fun htop =>
      exec_ret_completes (mt List.length_eq_zero_iff.2 htop)
  | drw x y n =>
    exact .of_check (fun hpast => exec_drw_of_le (le_spriteTop_iff.2 hpast)) fun hfits =>
      ⟨_, exec_drw_of_lt (Nat.not_le.1 (mt le_spriteTop_iff.1 hfits)), drawSprite_run s x y n⟩
  | ldB x =>
    exact .of_check exec_ldB_of_le fun hfits => ⟨_, exec_ldB_of_lt (Nat.not_le.1 hfits), storeBytes_run s _ _⟩
  | stRegs x =>
    exact .of_check (fun hpast => exec_stRegs_of_le (le_transferTop_iff.2 hpast)) fun hfits =>
      ⟨_, exec_stRegs_of_lt (Nat.not_le.1 (mt le_transferTop_iff.1 hfits)), by rw [setIndex_run, storeBytes_run]⟩
  | ldRegs x =>
    exact .of_check (fun hpast => exec_ldRegs_of_le (le_transferTop_iff.2 hpast)) fun hfits =>
      ⟨_, exec_ldRegs_of_lt (Nat.not_le.1 (mt le_transferTop_iff.1 hfits)), by rw [setIndex_run, loadRegs_run]⟩
  | addI x =>
    exact .of_check exec_addI_of_lt fun hfits => ⟨_, exec_addI_of_le (Nat.not_lt.1 hfits), indexFlag_run _ _⟩
  | skp x =>
    exact .of_check (fun hbig => exec_skp_of_none (keyNumber_of_rejected hbig)) fun hkey =>
      ⟨_, exec_skp_of_key (keyNumber_of_not_rejected hkey), skipIf_run s _⟩
  | sknp x =>
    exact .of_check (fun hbig => exec_sknp_of_none (keyNumber_of_rejected hbig)) fun hkey =>
      ⟨_, exec_sknp_of_key (keyNumber_of_not_rejected hkey), skipIf_run s _⟩
  | seImm | sneImm | seReg | sneReg => exact ⟨_, rfl, skipIf_run s _⟩
  | ldVxK x => exact exec_ldVxK_completes x s
  | _ => exact ⟨_, rfl, rfl⟩

end Sys2Proof.Machine
end

section
open Sys2Proof Sys2Proof.Machine

/-- Settles O36: the table's entry is answered by the instruction; a fault's answer is `raise`, one write of `RUN`. -/
theorem executeFaultsExactlyAsListed : Obligations.ExecuteFaultsExactlyAsListed :=
  exec_answersEntry

end

section
/-! SUPPORT. Program load (spec/70_reset_and_hazards.md R260): when it happens, and field by field and byte by byte what
it leaves; and what the power-on state shares with a loaded one. -/

namespace Sys2Proof.Machine

variable {s t : State} {rom : List Byte} {cfg : Cfg}

/-! ### A state with nothing in it (decision D16) -/

theorem reg_of_zeros (h : s.v = Vector.replicate 16 0) (r : Reg) : s.reg r = 0 := by
  simp [State.reg, h]

theorem pixel_of_blank (h : s.fb = Vector.replicate 32 0) (px py : Nat) : s.pixel px py = false := by
  rw [State.pixel, h, screenPixel_replicate_zero]

/-! ### Memory nothing has written (R38) -/

theorem background_font {p : Params} {n k : Nat} (hk : k < 80) : background p n (0x050 + k) = p.font[k] := by
  rw [background, dif_pos (by omega)]
  simp only [Nat.add_sub_cancel_left]

theorem background_fill {p : Params} {n a : Nat} {b : Byte} (hinit : p.memInit = .fill b)
    (ha : a < 0x050 ∨ 0x0A0 ≤ a) : background p n a = b := by
  rw [background, dif_neg (by omega), hinit]

theorem byteAt_of_mem_nil (h : s.mem = []) (a : Nat) : s.byteAt a = background s.params s.loads a := by
  rw [State.byteAt, h, Memory.get, State.background]

/-! ### What a load leaves -/

section Fields
variable (s) (rom : List Byte) (cfg : Cfg)

@[simp] theorem loadProgram_v : (s.loadProgram rom cfg).v = Vector.replicate 16 0 := by simp [State.loadProgram]
@[simp] theorem loadProgram_index : (s.loadProgram rom cfg).index = 0 := by simp [State.loadProgram]
@[simp] theorem loadProgram_dt : (s.loadProgram rom cfg).dt = 0 := by simp [State.loadProgram]
@[simp] theorem loadProgram_st : (s.loadProgram rom cfg).st = 0 := by simp [State.loadProgram]
@[simp] theorem loadProgram_fb : (s.loadProgram rom cfg).fb = Vector.replicate 32 0 := by simp [State.loadProgram]
@[simp] theorem loadProgram_key : (s.loadProgram rom cfg).key = 0 := by simp [State.loadProgram]
@[simp] theorem loadProgram_keyIn : (s.loadProgram rom cfg).keyIn = s.keyIn := by simp [State.loadProgram]
@[simp] theorem loadProgram_host : (s.loadProgram rom cfg).host = s.host := by simp [State.loadProgram]
@[simp] theorem loadProgram_signals : (s.loadProgram rom cfg).signals = s.signals := by simp [State.loadProgram]
@[simp] theorem loadProgram_randDraws : (s.loadProgram rom cfg).randDraws = s.randDraws := by simp [State.loadProgram]
@[simp] theorem loadProgram_keyDraws : (s.loadProgram rom cfg).keyDraws = s.keyDraws := by simp [State.loadProgram]

end Fields

/-- The program stands from 0x200 on. -/
theorem byteAt_loadProgram_of_getElem? {k : Nat} {b : Byte} (h : rom[k]? = some b) :
    (s.loadProgram rom cfg).byteAt (0x200 + k) = b :=
  byteAt_storeBytes_of_getElem? h

/-- Elsewhere memory is what nothing has written, after one more load. -/
theorem byteAt_loadProgram_of_outside {a : Nat} (h : a < 0x200 ∨ 0x200 + rom.length ≤ a) :
    (s.loadProgram rom cfg).byteAt a = background s.params (s.loads + 1) a :=
  byteAt_storeBytes_of_outside h

/-- What is fetched is memory at PC. -/
theorem fetchBytes_congr (hmem : ∀ a, t.byteAt a = s.byteAt a) (hpc : t.pc = s.pc) : t.fetchBytes = s.fetchBytes := by
  simp only [State.fetchBytes, hmem, hpc]

/-- The first fetch after a load reads the program's first two bytes (R262). -/
theorem fetchBytes_loadProgram (s : State) (a b : Byte) (rom : List Byte) (cfg : Cfg) :
    (s.loadProgram (a :: b :: rom) cfg).fetchBytes = [a, b] := by
  have hfirst : (s.loadProgram (a :: b :: rom) cfg).byteAt 0x200 = a := byteAt_loadProgram_of_getElem? (k := 0) rfl
  have hsecond : (s.loadProgram (a :: b :: rom) cfg).byteAt 0x201 = b := byteAt_loadProgram_of_getElem? (k := 1) rfl
  simp [State.fetchBytes, hfirst, hsecond]

/-! ### When it happens -/

/-- A load can happen everywhere but inside a batch (R200, decision D31). -/
theorem enabled_reset (rom : List Byte) (hcfg : cfg.legal = true) (hwhen : s.run ≠ .running ∨ s.rem = 0) :
    (HostEvent.reset rom cfg).enabled s = true := by
  cases hrun : s.run with
  | idle | halted => simp [HostEvent.enabled, State.isHalted, hcfg, hrun]
  | running =>
    have hrem : s.rem = 0 := hwhen.resolve_left fun hne => hne hrun
    simp [HostEvent.enabled, State.betweenFrames, hcfg, hrun, hrem]

/-- The step that loads a program which fits (R214, R260). -/
theorem step_of_load {rest : List HostEvent} (hhost : s.host = .reset rom cfg :: rest) (hcfg : cfg.legal = true)
    (hwhen : s.run ≠ .running ∨ s.rem = 0) (hfits : rom.length ≤ 3584) :
    step s = .next ({ s with host := rest }.loadProgram rom cfg) := by
  rw [step_of_enabled hhost (by simp) (enabled_reset rom hcfg hwhen), perform_of_fitting (Nat.not_lt.2 hfits)]

/-! ### The boot (R262) -/

/-- From `Idle` after a load, `Start` and then the first event, which is a frame tick. -/
theorem run_start_then_tick (hhost : s.host = [.start]) (hrun : s.run = .idle) (hrem : s.rem = 0) :
    Sys2Proof.core.run 2 s = .next (frameTick { s with run := .running, host := [] }) := by
  have hstart : step s = .next { s with run := .running, host := [] } :=
    step_of_enabled hhost (by simp) (decide_eq_true hrun)
  have htick := step_between_frames (s := { s with run := .running, host := [] }) rfl rfl hrem
  rw [run_succ_of_next 1 hstart, run_succ_of_next 0 htick, run_zero]

end Sys2Proof.Machine
end

section
open Sys2Proof Sys2Proof.Machine

/-- Settles O47: the step is the load, whose fields are those of an empty engine and whose bytes are the program's, and
outside it those of memory nothing has written. -/
theorem programLoadCreatesTheStateAnew : Obligations.ProgramLoadCreatesTheStateAnew := by
  intro s rom cfg rest hhost hcfg hwhen hfits
  refine ⟨_, step_of_load hhost hcfg hwhen hfits, reg_of_zeros (loadProgram_v ..), loadProgram_index ..,
    loadProgram_pc .., loadProgram_stack .., loadProgram_dt .., loadProgram_st ..,
    pixel_of_blank (loadProgram_fb ..), loadProgram_key .., loadProgram_run .., loadProgram_cfg ..,
    loadProgram_rem .., loadProgram_host .., fun k hk => ?_, fun k hk => ?_, fun b a hinit ha => ?_,
    loadProgram_params .., loadProgram_keyIn .., loadProgram_signals .., loadProgram_randDraws ..,
    loadProgram_keyDraws ..⟩
  · exact byteAt_loadProgram_of_getElem? (List.getElem?_eq_getElem hk)
  · rw [byteAt_loadProgram_of_outside (by omega), background_font hk]
  · rw [byteAt_loadProgram_of_outside (by omega), background_fill hinit (by omega)]

/-- Settles O48: the three steps are the load, `Start` and a frame tick, which finds the timers at 0 and leaves PC and
memory as the load made them. -/
theorem bootFetchesTheProgramsFirstBytes : Obligations.BootFetchesTheProgramsFirstBytes := by
  intro s a b rom cfg hrun hhost hcfg hfits
  have hload := step_of_load hhost hcfg (.inl (by simp [hrun])) hfits
  have hboot := run_start_then_tick (loadProgram_host { s with host := [.start] } (a :: b :: rom) cfg)
    (loadProgram_run ..) (loadProgram_rem ..)
  have hkeeps := (frame_frameTick { ({ s with host := [.start] }.loadProgram (a :: b :: rom) cfg) with
    run := .running, host := [] }).parts
  have hpc := hkeeps .pc (by simp)
  refine ⟨_, (run_succ_of_next 2 hload).trans hboot, hkeeps .run (by simp), ?_, ?_, ?_, ?_,
    hpc.trans (loadProgram_pc ..), ?_, hkeeps .host (by simp)⟩
  · rw [frameTick_rem, State.ipf, loadProgram_cfg]
  · rw [frameTick_key, loadProgram_keyIn]
  · rw [frameTick_dt, loadProgram_dt, countDown, if_pos rfl]
  · rw [frameTick_st, loadProgram_st, countDown, if_pos rfl]
  · exact (fetchBytes_congr (hkeeps .mem (by simp)) hpc).trans (fetchBytes_loadProgram _ a b rom cfg)

/-- Settles O52: the fields as `State.reset` lists them, the sixteen glyphs by evaluating the font table, and every
address outside it by `MEM_INIT`. -/
theorem powerOnStateIsAsSpecified : Obligations.PowerOnStateIsAsSpecified := by
  refine ⟨reg_of_zeros rfl, rfl, rfl, rfl, rfl, rfl, pixel_of_blank rfl, rfl, rfl, rfl, rfl, rfl, rfl, rfl, rfl, rfl,
    rfl, rfl, rfl, ?_, fun a ha => ?_⟩
  · decide
  · exact (byteAt_of_mem_nil rfl a).trans (background_fill rfl ha)

/-- Settles O53: memory and the stack are empty, and the rest are bounds on the values `State.reset` lists. -/
theorem invariantHoldsAtReset : Obligations.InvariantHoldsAtReset where
  memory := ⟨List.Pairwise.nil, by simp [State.reset]⟩
  stackDepth := Nat.zero_le 16
  returnAddresses := by simp [State.reset]
  pcRange := by decide
  batch := Nat.zero_le _
  cfgLegal := rfl
  noLoadHalt := by simp [State.reset]

end
